-- ==== Sys2Proof/Word.lean ====
section
/-! DEFINITION. The word types of the hardware (00_scope.md R8, 30_encoding.md R61): every value is unsigned. -/

namespace Sys2Proof

/-- An 8-bit value: a general register, a timer, a memory cell, the `nn` field. -/
abbrev Byte := BitVec 8

/-- A 16-bit value: `I`, `pc`, a stack entry, an opcode. -/
abbrev Word := BitVec 16

/-- The 12-bit address immediate `nnn`. -/
abbrev Addr := BitVec 12

/-- The value of a 4-bit field. -/
abbrev Nibble := Fin 16

/-- The number of a general register: every value 0 to 15 is legal (R63). -/
abbrev Reg := Nibble

/-- The index of a logical key, 0x0 to 0xF. -/
abbrev Key := Nibble

end Sys2Proof
end

