-- ==== Sys2Proof/Syntax.lean ====
section
/-! DEFINITION. The 35 operations of 30_encoding.md R64, one constructor per row of spec/opcode_table.json,
in the table's order. -/

namespace Sys2Proof

/-- One decoded operation with the fields its pattern names (30_encoding.md R62). -/
inductive Instr where
  | cls                                 -- 00E0
  | ret                                 -- 00EE
  | sys (nnn : Addr)                    -- 0nnn
  | jp (nnn : Addr)                     -- 1nnn
  | call (nnn : Addr)                   -- 2nnn
  | seImm (x : Reg) (nn : Byte)         -- 3xnn
  | sneImm (x : Reg) (nn : Byte)        -- 4xnn
  | seReg (x y : Reg)                   -- 5xy0
  | ldImm (x : Reg) (nn : Byte)         -- 6xnn
  | addImm (x : Reg) (nn : Byte)        -- 7xnn
  | ldReg (x y : Reg)                   -- 8xy0
  | orReg (x y : Reg)                   -- 8xy1
  | andReg (x y : Reg)                  -- 8xy2
  | xorReg (x y : Reg)                  -- 8xy3
  | addReg (x y : Reg)                  -- 8xy4
  | sub (x y : Reg)                     -- 8xy5
  | shr (x y : Reg)                     -- 8xy6
  | subn (x y : Reg)                    -- 8xy7
  | shl (x y : Reg)                     -- 8xyE
  | sneReg (x y : Reg)                  -- 9xy0
  | ldI (nnn : Addr)                    -- Annn
  | jpV0 (nnn : Addr)                   -- Bnnn
  | rnd (x : Reg) (nn : Byte)           -- Cxnn
  | drw (x y : Reg) (n : Nibble)        -- Dxyn
  | skp (x : Reg)                       -- Ex9E
  | sknp (x : Reg)                      -- ExA1
  | ldVxDT (x : Reg)                    -- Fx07
  | ldVxK (x : Reg)                     -- Fx0A
  | ldDTVx (x : Reg)                    -- Fx15
  | ldSTVx (x : Reg)                    -- Fx18
  | addI (x : Reg)                      -- Fx1E
  | ldF (x : Reg)                       -- Fx29
  | ldB (x : Reg)                       -- Fx33
  | stRegs (x : Reg)                    -- Fx55
  | ldRegs (x : Reg)                    -- Fx65
  deriving DecidableEq, Repr

end Sys2Proof
end

