-- ==== Sys2Proof/WellFormed.lean ====
section
/-! DEFINITION. Which terms of `Instr` are instructions. The field widths are the types'; what is left is the
one exception of the table: the words 0x00E0 and 0x00EE are CLS and RET, never SYS (30_encoding.md R64, R65). -/

namespace Sys2Proof

/-- `0nnn` is selected by every word 0x0000 to 0x0FFF other than 0x00E0 and 0x00EE. -/
def sysFieldOk (nnn : Addr) : Bool := nnn != 0x0E0 && nnn != 0x0EE

/-- The check of one term. -/
def Instr.wf : Instr → Bool
  | .sys nnn => sysFieldOk nnn
  | .cls | .ret => true
  | .jp _ | .call _ | .ldI _ | .jpV0 _ => true
  | .seImm _ _ | .sneImm _ _ | .ldImm _ _ | .addImm _ _ | .rnd _ _ => true
  | .seReg _ _ | .sneReg _ _ | .ldReg _ _ | .orReg _ _ | .andReg _ _ | .xorReg _ _ => true
  | .addReg _ _ | .sub _ _ | .shr _ _ | .subn _ _ | .shl _ _ => true
  | .drw _ _ _ => true
  | .skp _ | .sknp _ => true
  | .ldVxDT _ | .ldVxK _ | .ldDTVx _ | .ldSTVx _ | .addI _ | .ldF _ => true
  | .ldB _ | .stRegs _ | .ldRegs _ => true

end Sys2Proof
end

