-- ==== Sys2Proof/Decode.lean ====
section
/-! DEFINITION. The decoder of 30_encoding.md R65, total on all words and on all byte strings, and after it the
encoder of R64, written from the same table. -/

namespace Sys2Proof

/-! ### Fields of an opcode (30_encoding.md R61) -/

/-- `op[15:12]`, the family selector. -/
def opTop (op : Word) : Nat := (op.extractLsb' 12 4).toNat

/-- `op[11:8]`. -/
def opX (op : Word) : Reg := (op.extractLsb' 8 4).toFin

/-- `op[7:4]`. -/
def opY (op : Word) : Reg := (op.extractLsb' 4 4).toFin

/-- `op[3:0]`. -/
def opN (op : Word) : Nibble := (op.extractLsb' 0 4).toFin

/-- `op[7:0]`. -/
def opNN (op : Word) : Byte := op.extractLsb' 0 8

/-- `op[11:0]`. -/
def opNNN (op : Word) : Addr := op.extractLsb' 0 12

/-! ### Words to instructions -/

/-- Family 0: the two fixed words are tested before the general row (R64). -/
def decodeFamily0 (op : Word) : Instr :=
  if op = 0x00E0 then .cls else if op = 0x00EE then .ret else .sys (opNNN op)

/-- Family 8, selected by the low nibble. -/
def decodeFamily8 (x y : Reg) (n : Nat) : Option Instr :=
  match n with
  | 0x0 => some (.ldReg x y)
  | 0x1 => some (.orReg x y)
  | 0x2 => some (.andReg x y)
  | 0x3 => some (.xorReg x y)
  | 0x4 => some (.addReg x y)
  | 0x5 => some (.sub x y)
  | 0x6 => some (.shr x y)
  | 0x7 => some (.subn x y)
  | 0xE => some (.shl x y)
  | _ => none

/-- Family E, selected by the low byte. -/
def decodeFamilyE (x : Reg) (nn : Byte) : Option Instr :=
  if nn = 0x9E then some (.skp x)
  else if nn = 0xA1 then some (.sknp x)
  else none

/-- Family F, selected by the low byte. -/
def decodeFamilyF (x : Reg) (nn : Byte) : Option Instr :=
  if nn = 0x07 then some (.ldVxDT x)
  else if nn = 0x0A then some (.ldVxK x)
  else if nn = 0x15 then some (.ldDTVx x)
  else if nn = 0x18 then some (.ldSTVx x)
  else if nn = 0x1E then some (.addI x)
  else if nn = 0x29 then some (.ldF x)
  else if nn = 0x33 then some (.ldB x)
  else if nn = 0x55 then some (.stRegs x)
  else if nn = 0x65 then some (.ldRegs x)
  else none

/-- `decode(op)` of 30_encoding.md R65; `none` is `Unknown` (R66). The last arm is family F. -/
def decodeOp (op : Word) : Option Instr :=
  match opTop op with
  | 0x0 => some (decodeFamily0 op)
  | 0x1 => some (.jp (opNNN op))
  | 0x2 => some (.call (opNNN op))
  | 0x3 => some (.seImm (opX op) (opNN op))
  | 0x4 => some (.sneImm (opX op) (opNN op))
  | 0x5 => if opN op = 0 then some (.seReg (opX op) (opY op)) else none
  | 0x6 => some (.ldImm (opX op) (opNN op))
  | 0x7 => some (.addImm (opX op) (opNN op))
  | 0x8 => decodeFamily8 (opX op) (opY op) (opN op).val
  | 0x9 => if opN op = 0 then some (.sneReg (opX op) (opY op)) else none
  | 0xA => some (.ldI (opNNN op))
  | 0xB => some (.jpV0 (opNNN op))
  | 0xC => some (.rnd (opX op) (opNN op))
  | 0xD => some (.drw (opX op) (opY op) (opN op))
  | 0xE => decodeFamilyE (opX op) (opNN op)
  | _ => decodeFamilyF (opX op) (opNN op)

/-! ### Bytes to instructions -/

/-- Why a byte string holds no instruction at its front. -/
inductive DecodeError where
  /-- Fewer than two bytes: an instruction is one 16-bit word (R60). -/
  | truncated
  /-- The word selects no instruction (R66). -/
  | unknownOpcode (op : Word)
  deriving DecidableEq, Repr

/-- The two bytes of a word as they lie in memory, the high byte at the lower address (20_memory.md R42). -/
def wordBytes (op : Word) : List Byte := [op.extractLsb' 8 8, op.extractLsb' 0 8]

/-- The word of two bytes, most significant first (20_memory.md R42). -/
def bytesWord (hi lo : Byte) : Word := hi ++ lo

/-- The instruction at the front of a byte string, with the bytes after it. -/
def decode : List Byte → Except DecodeError (Instr × List Byte)
  | hi :: lo :: rest =>
    match decodeOp (bytesWord hi lo) with
    | some i => .ok (i, rest)
    | none => .error (.unknownOpcode (bytesWord hi lo))
  | _ => .error .truncated

/-- A table word of `nbits` bits as a 16-bit word, the bits above `nbits` zero. -/
def tableWord (nbits w : Nat) : Word := BitVec.ofNat 16 (w % 2 ^ nbits)

/-- The instruction the decoder reads from a table word laid out in memory order. -/
def decodeTableWord (nbits w : Nat) : Option Instr :=
  match decode (wordBytes (tableWord nbits w)) with
  | .ok (i, _) => some i
  | .error _ => none

/-! ### Instructions to words (30_encoding.md R62, R64) -/

/-- A 4-bit field. -/
def nib (n : Nibble) : BitVec 4 := BitVec.ofFin n

/-- Shape ADDR: `t nnn`. -/
def encAddr (t : BitVec 4) (nnn : Addr) : Word := t ++ nnn

/-- Shape REG_IMM: `t x nn`. -/
def encRegImm (t : BitVec 4) (x : Reg) (nn : Byte) : Word := t ++ nib x ++ nn

/-- Shapes REG_REG and REG_REG_N: `t x y n`. -/
def encRegRegN (t : BitVec 4) (x y : Reg) (n : BitVec 4) : Word := t ++ nib x ++ nib y ++ n

/-- The word of an instruction. -/
def encode : Instr → Word
  | .cls => 0x00E0
  | .ret => 0x00EE
  | .sys nnn => encAddr 0x0 nnn
  | .jp nnn => encAddr 0x1 nnn
  | .call nnn => encAddr 0x2 nnn
  | .seImm x nn => encRegImm 0x3 x nn
  | .sneImm x nn => encRegImm 0x4 x nn
  | .seReg x y => encRegRegN 0x5 x y 0x0
  | .ldImm x nn => encRegImm 0x6 x nn
  | .addImm x nn => encRegImm 0x7 x nn
  | .ldReg x y => encRegRegN 0x8 x y 0x0
  | .orReg x y => encRegRegN 0x8 x y 0x1
  | .andReg x y => encRegRegN 0x8 x y 0x2
  | .xorReg x y => encRegRegN 0x8 x y 0x3
  | .addReg x y => encRegRegN 0x8 x y 0x4
  | .sub x y => encRegRegN 0x8 x y 0x5
  | .shr x y => encRegRegN 0x8 x y 0x6
  | .subn x y => encRegRegN 0x8 x y 0x7
  | .shl x y => encRegRegN 0x8 x y 0xE
  | .sneReg x y => encRegRegN 0x9 x y 0x0
  | .ldI nnn => encAddr 0xA nnn
  | .jpV0 nnn => encAddr 0xB nnn
  | .rnd x nn => encRegImm 0xC x nn
  | .drw x y n => encRegRegN 0xD x y (nib n)
  | .skp x => encRegImm 0xE x 0x9E
  | .sknp x => encRegImm 0xE x 0xA1
  | .ldVxDT x => encRegImm 0xF x 0x07
  | .ldVxK x => encRegImm 0xF x 0x0A
  | .ldDTVx x => encRegImm 0xF x 0x15
  | .ldSTVx x => encRegImm 0xF x 0x18
  | .addI x => encRegImm 0xF x 0x1E
  | .ldF x => encRegImm 0xF x 0x29
  | .ldB x => encRegImm 0xF x 0x33
  | .stRegs x => encRegImm 0xF x 0x55
  | .ldRegs x => encRegImm 0xF x 0x65

/-- The bytes of an instruction in memory order. -/
def encodeBytes (i : Instr) : List Byte := wordBytes (encode i)

/-! ### The opcode table (30_encoding.md R64) -/

/-- The row of an instruction in the table of R64, counted from 0: the index of its operation kind (R86). -/
def opRow : Instr → Fin 35
  | .cls => 0
  | .ret => 1
  | .sys _ => 2
  | .jp _ => 3
  | .call _ => 4
  | .seImm _ _ => 5
  | .sneImm _ _ => 6
  | .seReg _ _ => 7
  | .ldImm _ _ => 8
  | .addImm _ _ => 9
  | .ldReg _ _ => 10
  | .orReg _ _ => 11
  | .andReg _ _ => 12
  | .xorReg _ _ => 13
  | .addReg _ _ => 14
  | .sub _ _ => 15
  | .shr _ _ => 16
  | .subn _ _ => 17
  | .shl _ _ => 18
  | .sneReg _ _ => 19
  | .ldI _ => 20
  | .jpV0 _ => 21
  | .rnd _ _ => 22
  | .drw _ _ _ => 23
  | .skp _ => 24
  | .sknp _ => 25
  | .ldVxDT _ => 26
  | .ldVxK _ => 27
  | .ldDTVx _ => 28
  | .ldSTVx _ => 29
  | .addI _ => 30
  | .ldF _ => 31
  | .ldB _ => 32
  | .stRegs _ => 33
  | .ldRegs _ => 34

/-- One row of the table: a word selects the row when `op AND mask = match`. -/
structure OpcodeRow where
  mask    : Word
  pattern : Word
  deriving DecidableEq, Repr

/-- The word has the row's fixed bits. -/
def OpcodeRow.selects (r : OpcodeRow) (op : Word) : Bool := op &&& r.mask == r.pattern

/-- The 35 rows, in the table's order. -/
def opcodeTable : Vector OpcodeRow 35 := #v[
  ⟨0xFFFF, 0x00E0⟩, ⟨0xFFFF, 0x00EE⟩, ⟨0xF000, 0x0000⟩, ⟨0xF000, 0x1000⟩, ⟨0xF000, 0x2000⟩,
  ⟨0xF000, 0x3000⟩, ⟨0xF000, 0x4000⟩, ⟨0xF00F, 0x5000⟩, ⟨0xF000, 0x6000⟩, ⟨0xF000, 0x7000⟩,
  ⟨0xF00F, 0x8000⟩, ⟨0xF00F, 0x8001⟩, ⟨0xF00F, 0x8002⟩, ⟨0xF00F, 0x8003⟩, ⟨0xF00F, 0x8004⟩,
  ⟨0xF00F, 0x8005⟩, ⟨0xF00F, 0x8006⟩, ⟨0xF00F, 0x8007⟩, ⟨0xF00F, 0x800E⟩, ⟨0xF00F, 0x9000⟩,
  ⟨0xF000, 0xA000⟩, ⟨0xF000, 0xB000⟩, ⟨0xF000, 0xC000⟩, ⟨0xF000, 0xD000⟩, ⟨0xF0FF, 0xE09E⟩,
  ⟨0xF0FF, 0xE0A1⟩, ⟨0xF0FF, 0xF007⟩, ⟨0xF0FF, 0xF00A⟩, ⟨0xF0FF, 0xF015⟩, ⟨0xF0FF, 0xF018⟩,
  ⟨0xF0FF, 0xF01E⟩, ⟨0xF0FF, 0xF029⟩, ⟨0xF0FF, 0xF033⟩, ⟨0xF0FF, 0xF055⟩, ⟨0xF0FF, 0xF065⟩]

end Sys2Proof
end

