-- ==== Sys2Proof/Machine/Flags.lean ====
section
/-! DEFINITION. The results and the flag values of the arithmetic law (43_load_alu.md R122). -/

namespace Sys2Proof.Machine

/-- A flag as the byte that VF receives. -/
def flagByte (b : Bool) : Byte := if b then 1 else 0

/-- The carry of 8xy4: 1 iff the unsigned sum exceeds 255. -/
def carry (a b : Byte) : Bool := decide (255 < a.toNat + b.toNat)

/-- The flag of 8xy5 and 8xy7: 1 iff `a >= b`, no borrow. -/
def noBorrow (a b : Byte) : Bool := decide (b.toNat ≤ a.toNat)

/-- `(a + b) mod 256`. -/
def addBytes (a b : Byte) : Byte := BitVec.ofNat 8 ((a.toNat + b.toNat) % 256)

/-- `(a + 256 - b) mod 256`. -/
def subBytes (a b : Byte) : Byte := BitVec.ofNat 8 ((a.toNat + 256 - b.toNat) % 256)

/-- `v >> 1`, logical. -/
def shrByte (v : Byte) : Byte := v >>> 1

/-- `(v * 2) mod 256`. -/
def shlByte (v : Byte) : Byte := BitVec.ofNat 8 ((v.toNat * 2) % 256)

/-- The bit that 8xy6 shifts out. -/
def bit0 (v : Byte) : Bool := v.getLsbD 0

/-- The bit that 8xyE shifts out. -/
def bit7 (v : Byte) : Bool := v.getLsbD 7

/-- A timer at a frame boundary (60_exceptions.md R222): one less, never below 0. -/
def tick (b : Byte) : Byte := if b = 0 then 0 else b - 1

end Sys2Proof.Machine
end

