-- ==== Sys2Proof/Config.lean ====
section
/-! DEFINITION. The parameters of the block (00_scope.md R6, R7) and the free values of the model.
A configuration is plain data that `Construct` hands over; the machine keeps it in `State.cfg` (log entry 1). -/

namespace Sys2Proof

/-- `ENTRY`, fixed at 0x200 (00_scope.md R7). -/
abbrev entryPoint : Nat := 0x200

/-- `DEBOUNCE`, fixed at 30 ms in µs (00_scope.md R7). -/
abbrev debounce : Nat := 30000

/-- The configuration record and the open parameters. Times are natural numbers of µs (R8).
`cost` is indexed by the row number of 30_encoding.md R64 and has the speed multiplier applied (R86, log entry 2). -/
structure Config where
  shiftQuirk      : Bool
  logicQuirk      : Bool
  memoryQuirk     : Bool
  spriteWrapQuirk : Bool
  jumpOffsetQuirk : Bool
  fontBase        : Nat
  frameBudget     : Nat
  stackDepth      : Nat
  cost            : Vector Nat 35
  fontGlyphs      : Vector Byte 80
  deriving DecidableEq, Repr

/-- The default glyph table of 70_reset_and_hazards.md R242 (PRESUMED: "from general knowledge, not in source",
log entry 9). No statement rests on these bytes. -/
def Config.defaultGlyphs : Vector Byte 80 := #v[
  0xF0, 0x90, 0x90, 0x90, 0xF0,  0x20, 0x60, 0x20, 0x20, 0x70,
  0xF0, 0x10, 0xF0, 0x80, 0xF0,  0xF0, 0x10, 0xF0, 0x10, 0xF0,
  0x90, 0x90, 0xF0, 0x10, 0x10,  0xF0, 0x80, 0xF0, 0x10, 0xF0,
  0xF0, 0x80, 0xF0, 0x90, 0xF0,  0xF0, 0x10, 0x20, 0x40, 0x40,
  0xF0, 0x90, 0xF0, 0x90, 0xF0,  0xF0, 0x90, 0xF0, 0x10, 0xF0,
  0xF0, 0x90, 0xF0, 0x90, 0x90,  0xE0, 0x90, 0xE0, 0x90, 0xE0,
  0xF0, 0x80, 0x80, 0x80, 0xF0,  0xE0, 0x90, 0x90, 0x90, 0xE0,
  0xF0, 0x80, 0xF0, 0x80, 0xF0,  0xF0, 0x80, 0xF0, 0x80, 0x80]

/-- CFG0 of 95_test_vectors.md section 0 (DESIGN CHOICE for `State.reset`, log entry 1; the cost of 100 µs for
every operation is the spec's example of an open parameter). -/
def Config.cfg0 : Config where
  shiftQuirk      := false
  logicQuirk      := false
  memoryQuirk     := false
  spriteWrapQuirk := false
  jumpOffsetQuirk := false
  fontBase        := 0x050
  frameBudget     := 16667
  stackDepth      := 16
  cost            := Vector.replicate 35 100
  fontGlyphs      := Config.defaultGlyphs

/-- FREE VALUE (log entry 4): the random byte of the n-th cycle taken with free inputs (40_cycle.md R94). -/
opaque Config.freeRnd : Nat → Byte

/-- FREE VALUE (log entry 4): the real duration `dt` of the n-th cycle taken with free inputs
(60_exceptions.md R234). -/
opaque Config.freeDt : Nat → Nat

/-- FREE VALUE (log entry 4): the real time between the earliest start that 60_exceptions.md R233 duty 3 allows
and the start of the n-th cycle taken with free inputs. -/
opaque Config.freeGap : Nat → Nat

end Sys2Proof
end

