-- ==== Sys2Proof/Machine/Memory.lean ====
section
/-! DEFINITION. The one memory of the block (20_memory.md R40 to R43) as a list of cells in canonical form:
addresses strictly rising, every one below 4096, no cell equal to what an unlisted address reads as. -/

namespace Sys2Proof.Machine

/-- `MEM_SIZE` (00_scope.md R7). -/
abbrev memSize : Nat := 4096

/-- The contents of memory: the cells that do not read as `unlistedByte`. -/
abbrev Memory := List Host.Cell

/-- What an address with no cell reads as: the 0 of construction (20_memory.md R48; the spec's own decision D13,
log entry 8). -/
def unlistedByte : Byte := 0

/-- `MemRead(addr, 1)` (20_memory.md R41). -/
def Memory.read : Memory → Nat → Byte
  | [], _ => unlistedByte
  | (k, b) :: m, a => if k = a then b else Memory.read m a

/-- The memory with no cell at `a`. -/
def Memory.erase (m : Memory) (a : Nat) : Memory := m.filter fun c => c.1 != a

/-- A cell put in before the first cell of a higher address. -/
def Memory.insert (a : Nat) (b : Byte) : Memory → Memory
  | [] => [(a, b)]
  | (k, c) :: m => if a < k then (a, b) :: (k, c) :: m else (k, c) :: Memory.insert a b m

/-- `MemWrite(addr, 1, v)` (20_memory.md R41): changes that one cell and nothing else. -/
def Memory.write (m : Memory) (a : Nat) (b : Byte) : Memory :=
  if b = unlistedByte then m.erase a else Memory.insert a b (m.erase a)

/-- Bytes written to consecutive addresses, the first at `a`. -/
def Memory.store : Memory → Nat → List Byte → Memory
  | m, _, [] => m
  | m, a, b :: bs => Memory.store (m.write a b) (a + 1) bs

/-- The `n` bytes at `a` to `a + n - 1`. -/
def Memory.load (m : Memory) (a n : Nat) : List Byte := (List.range n).map fun r => m.read (a + r)

/-- The canonical form. -/
abbrev Memory.wf (m : Memory) : Prop :=
  m.Pairwise (fun c d => c.1 < d.1) ∧ ∀ c ∈ m, c.1 < memSize ∧ c.2 ≠ unlistedByte

/-- `font_addr` (70_reset_and_hazards.md R241): `cfg.font_base + 5*d`. -/
def fontTable (base : Nat) : Vector Word 16 := Vector.ofFn fun d => BitVec.ofNat 16 (base + 5 * d.val)

/-- Memory after `Construct` with no program and the configuration CFG0: the 80 glyph bytes of R242 at 0x050
(PRESUMED bytes, log entry 9), written out so that reset memory evaluates cheaply. -/
def cfg0Memory : Memory :=
  [(0x050, 0xF0), (0x051, 0x90), (0x052, 0x90), (0x053, 0x90), (0x054, 0xF0)] ++
  [(0x055, 0x20), (0x056, 0x60), (0x057, 0x20), (0x058, 0x20), (0x059, 0x70)] ++
  [(0x05A, 0xF0), (0x05B, 0x10), (0x05C, 0xF0), (0x05D, 0x80), (0x05E, 0xF0)] ++
  [(0x05F, 0xF0), (0x060, 0x10), (0x061, 0xF0), (0x062, 0x10), (0x063, 0xF0)] ++
  [(0x064, 0x90), (0x065, 0x90), (0x066, 0xF0), (0x067, 0x10), (0x068, 0x10)] ++
  [(0x069, 0xF0), (0x06A, 0x80), (0x06B, 0xF0), (0x06C, 0x10), (0x06D, 0xF0)] ++
  [(0x06E, 0xF0), (0x06F, 0x80), (0x070, 0xF0), (0x071, 0x90), (0x072, 0xF0)] ++
  [(0x073, 0xF0), (0x074, 0x10), (0x075, 0x20), (0x076, 0x40), (0x077, 0x40)] ++
  [(0x078, 0xF0), (0x079, 0x90), (0x07A, 0xF0), (0x07B, 0x90), (0x07C, 0xF0)] ++
  [(0x07D, 0xF0), (0x07E, 0x90), (0x07F, 0xF0), (0x080, 0x10), (0x081, 0xF0)] ++
  [(0x082, 0xF0), (0x083, 0x90), (0x084, 0xF0), (0x085, 0x90), (0x086, 0x90)] ++
  [(0x087, 0xE0), (0x088, 0x90), (0x089, 0xE0), (0x08A, 0x90), (0x08B, 0xE0)] ++
  [(0x08C, 0xF0), (0x08D, 0x80), (0x08E, 0x80), (0x08F, 0x80), (0x090, 0xF0)] ++
  [(0x091, 0xE0), (0x092, 0x90), (0x093, 0x90), (0x094, 0x90), (0x095, 0xE0)] ++
  [(0x096, 0xF0), (0x097, 0x80), (0x098, 0xF0), (0x099, 0x80), (0x09A, 0xF0)] ++
  [(0x09B, 0xF0), (0x09C, 0x80), (0x09D, 0xF0), (0x09E, 0x80), (0x09F, 0x80)]

end Sys2Proof.Machine
end

