-- ==== Sys2Proof/Machine/State.lean ====
section
/-! DEFINITION. The state of the block (10_state.md R10), the reasons a step can stop, and the state after reset. -/

namespace Sys2Proof.Machine

/-- The frame buffer, 64 by 32 cells of one bit: `fb[py][px]` is the cell of column px and row py
(10_state.md R20, log entry 12). -/
abbrev Frame := Vector (Vector Bool 64) 32

/-- Every cell off. -/
def Frame.blank : Frame := Vector.replicate 32 (Vector.replicate 64 false)

/-- The four fatal conditions (60_exceptions.md R200). -/
inductive FaultKind where
  | memoryOutOfBounds
  | unknownOpcode
  | stackUnderflow
  | stackOverflow
  deriving DecidableEq, Repr

/-- The fault record (10_state.md R27): the kind and its information word, an address or an opcode. -/
structure FaultRecord where
  kind : FaultKind
  info : Nat
  deriving DecidableEq, Repr

/-- The output `status` (00_scope.md R5): Running, or Halted with its fault record. It holds `halted` and `fault`
of 10_state.md R27 (log entry 11). -/
inductive Status where
  | running
  | halted (fault : FaultRecord)
  deriving DecidableEq, Repr

/-- The inputs of one `Cycle(t, dt, rnd)` (40_cycle.md R80). -/
structure CycleInput where
  t   : Nat
  dt  : Nat
  rnd : Byte
  deriving DecidableEq, Repr

/-- The six transactions (00_scope.md R5). -/
inductive Transaction where
  | construct (program : List Byte) (cfg : Config)
  | reset
  | keyDown (k : Key)
  | keyUp (k : Key) (t : Nat)
  | cycle (inp : CycleInput)
  | ackFrame
  deriving DecidableEq, Repr

/-- The MODEL's own record of the outside world (log entries 3 and 4): the transactions still to come, oldest
first; the inputs of the latest cycle; the time of the latest `Cycle` or `KeyUp`; how many cycles took free
inputs. -/
structure Env where
  pending   : List Transaction
  inp       : CycleInput
  lastEvent : Nat
  draws     : Nat
  deriving DecidableEq, Repr

/-- The whole state of the block, in the order and under the names of 10_state.md R10 (`V` is `x`); then the
configuration of its construction (log entry 1) and the model's record of the outside world. -/
structure State where
  V          : Vector Byte 16
  I          : Word
  pc         : Word
  stack      : List Word
  DT         : Byte
  ST         : Byte
  mem        : Memory
  fb         : Frame
  cur        : Vector Bool 16
  shadow     : Vector Bool 16
  relTs      : Vector Nat 16
  fontAddr   : Vector Word 16
  acc        : Nat
  frameReady : Bool
  status     : Status
  cfg        : Config
  env        : Env
  deriving DecidableEq, Repr

/-- The machine never stops with a fault of the step: each of the four fatal conditions is a NEXT state, Halted,
as 60_exceptions.md R204 describes it (log entry 7). No constructor: nothing raises one (safe). -/
inductive Fault
  deriving DecidableEq, Repr

/-- Why a step gives no state. -/
inductive Refusal where
  /-- An instruction that has no meaning yet; raised by an arm of `exec` only. Safe. No arm raises it. -/
  | notModelled (mnemonic : String)
  /-- `Construct` with arguments that 70_reset_and_hazards.md R240 does not admit ("is refused"); raised by the
  transaction. Safe (log entry 6). -/
  | illegalConstruct
  /-- A `Cycle` or `KeyUp` whose time breaks duty 3 of 60_exceptions.md R233 (93_implementation_defined.md U17:
  `refuse`); raised by the transaction. Safe (log entry 5). -/
  | timeRunsBackwards
  deriving DecidableEq, Repr

/-- The outcome of an instruction or of a step. -/
abbrev Out := Host.Outcome State Fault Refusal

/-- The model's record of the outside world at reset: nothing pending, no cycle yet (log entries 3 and 4). -/
def Env.reset : Env where
  pending   := []
  inp       := ⟨0, 0, 0⟩
  lastEvent := 0
  draws     := 0

/-- The machine right after construction with no program and the configuration CFG0 (10_state.md R30, log entries
1, 9 and 10). -/
def State.reset : State where
  V          := Vector.replicate 16 0
  I          := 0
  pc         := BitVec.ofNat 16 entryPoint
  stack      := []
  DT         := 0
  ST         := 0
  mem        := cfg0Memory
  fb         := Frame.blank
  cur        := Vector.replicate 16 false
  shadow     := Vector.replicate 16 false
  relTs      := Vector.replicate 16 0
  fontAddr   := fontTable Config.cfg0.fontBase
  acc        := 0
  frameReady := false
  status     := .running
  cfg        := Config.cfg0
  env        := Env.reset

end Sys2Proof.Machine
end

