-- ==== Sys2Proof/Machine/Ops.lean ====
section
/-! DEFINITION. The named operations over the state: registers, program counter, stack, memory, the entry into
Halted (the hardware's one exception entry) and, beside it, `Reset()`, the way out of it. -/

namespace Sys2Proof.Machine

/-! ### Registers (10_state.md R11 to R18) -/

/-- `x[i]` read. -/
def State.getV (s : State) (x : Reg) : Byte := s.V[x]

/-- `x[i] <- v`. -/
def State.setV (x : Reg) (b : Byte) (s : State) : State := { s with V := s.V.set x b }

/-- `x[i] <- v` when `c` holds. -/
def State.setVIf (c : Bool) (x : Reg) (b : Byte) (s : State) : State :=
  { s with V := if c then s.V.set x b else s.V }

/-- `I <- v`. -/
def State.setI (w : Word) (s : State) : State := { s with I := w }

/-- `DT <- v`. -/
def State.setDT (b : Byte) (s : State) : State := { s with DT := b }

/-- `ST <- v`. -/
def State.setST (b : Byte) (s : State) : State := { s with ST := b }

/-- The number of VF, the flag register (10_state.md R12). -/
abbrev VF : Reg := 15

/-! ### Program counter (10_state.md R14, R15) -/

/-- `pc <- target`. -/
def State.jump (target : Word) (s : State) : State := { s with pc := target }

/-- `pc <- pc + 2`, the default of every instruction (40_cycle.md R88). -/
def State.advance (s : State) : State := { s with pc := s.pc + 2 }

/-- "Skip next instr" (42_skips.md R114): `pc + 4` if the condition holds, `pc + 2` otherwise. -/
def State.skipIf (c : Bool) (s : State) : State := { s with pc := if c then s.pc + 4 else s.pc + 2 }

/-! ### Stack (10_state.md R16): the last entry is the top -/

/-- `push(v)`. -/
def State.push (w : Word) (s : State) : State := { s with stack := s.stack ++ [w] }

/-- The stack after `pop()`. -/
def State.dropTop (s : State) : State := { s with stack := s.stack.dropLast }

/-! ### Memory and frame buffer -/

/-- One byte of memory (20_memory.md R41). -/
def State.readByte (s : State) (a : Nat) : Byte := s.mem.read a

/-- Bytes stored to consecutive addresses, the first at `a`. -/
def State.storeBytes (a : Nat) (bs : List Byte) (s : State) : State := { s with mem := s.mem.store a bs }

/-- The frame buffer replaced. -/
def State.setFb (f : Frame) (s : State) : State := { s with fb := f }

/-- `fb[j]`, row-major (10_state.md R20): the cell of column `j mod 64` and row `j div 64`. -/
def Frame.cell (f : Frame) (j : Fin 2048) : Bool :=
  (f[j.val / 64]'(by omega))[j.val % 64]'(by omega)

/-! ### Entering Halted, and the way out -/

/-- `raise K(info)` (60_exceptions.md R204): `halted` is set, the record is written, nothing else changes and the
cycle ends. A NEXT state: the block goes on in Halted. -/
def raise (kind : FaultKind) (info : Nat) (s : State) : Out :=
  .next { s with status := .halted ⟨kind, info⟩ }

/-- `Reset()` (70_reset_and_hazards.md R245). No instruction returns from Halted (60_exceptions.md R208): this and
`Construct` are the only ways out. `mem`, `font_addr` and `cfg` stay (R246). -/
def State.resetBlock (s : State) : State :=
  { s with
    V          := Vector.replicate 16 0
    I          := 0
    stack      := []
    fb         := Frame.blank
    cur        := Vector.replicate 16 false
    shadow     := Vector.replicate 16 false
    relTs      := Vector.replicate 16 0
    DT         := 0
    ST         := 0
    pc         := BitVec.ofNat 16 entryPoint
    acc        := 0
    frameReady := false
    status     := .running }

/-! ### Outputs (60_exceptions.md R232) -/

/-- `buzzer_active = (ST > 0)` (10_state.md R25). -/
def State.buzzerActive (s : State) : Bool := decide (0 < s.ST.toNat)

/-- The code of a fault kind (60_exceptions.md R200). -/
def faultCode : FaultKind → Nat
  | .memoryOutOfBounds => 1
  | .unknownOpcode => 2
  | .stackUnderflow => 3
  | .stackOverflow => 4

/-- `halted` (10_state.md R27). -/
def State.isHalted (s : State) : Bool :=
  match s.status with
  | .running => false
  | .halted _ => true

end Sys2Proof.Machine
end

