-- ==== Sys2Proof/Machine/Operands.lean ====
section
/-! DEFINITION. Every operand form: immediates, the narrowed register operands, the key operands, and the address
operand `I + i` with its range check. -/

namespace Sys2Proof.Machine

/-- `zext_16(nnn)` (30_encoding.md R63). -/
def addrOf (nnn : Addr) : Word := nnn.setWidth 16

/-- `x[x] mod 16`: a key index (Ex9E, ExA1) or a digit (Fx29) (30_encoding.md R63). -/
def lowNibble (b : Byte) : Nibble := ⟨b.toNat % 16, by omega⟩

/-- The key that Vx names. -/
def State.keyOf (s : State) (x : Reg) : Key := lowNibble (s.getV x)

/-- The register that Bnnn adds (44_index_jump_random.md R141): V0, or with the quirk the one whose number is
`nnn[11:8]`. -/
def State.jumpOffsetReg (s : State) (nnn : Addr) : Reg :=
  if s.cfg.jumpOffsetQuirk then (nnn.extractLsb' 8 4).toFin else 0

/-! ### Keys (60_exceptions.md R227, 46_keypad_ops.md R162) -/

/-- `live[k]` at the start time of the cycle (40_cycle.md R83): released, and less than `DEBOUNCE` ago. -/
def State.live (s : State) (k : Key) : Bool :=
  s.shadow[k] && decide (s.env.inp.t - s.relTs[k] < debounce)

/-- The key qualifies for Fx0A: its release is live and it is not held. -/
def State.qualifies (s : State) (k : Key) : Bool := s.live k && !s.cur[k]

/-- `min(K)`: the lowest key that qualifies. -/
def State.firstKey (s : State) : Option Key := (List.finRange 16).find? s.qualifies

/-! ### Addresses `I + i` (20_memory.md R46) -/

/-- The smallest of the `n` addresses from `base` on that exceeds 0xFFF: natural-number sums, no wrap. -/
def outOfRange (base n : Nat) : Option Nat :=
  ((List.range n).map fun i => base + i).find? fun a => decide (0xFFF < a)

/-- The range check of an instruction that uses `n` addresses from `I` on, made before any state is changed
(20_memory.md R47): it faults with the smallest address out of range, or runs. -/
def checkRange (n : Nat) (s : State) (effect : State) : Out :=
  match outOfRange s.I.toNat n with
  | some a => raise .memoryOutOfBounds a s
  | none => .next effect

end Sys2Proof.Machine
end

