-- ==== Sys2Proof/Machine/Draw.lean ====
section
/-! DEFINITION. Family D: sprite draw and collision (45_draw.md). -/

namespace Sys2Proof.Machine

/-- A drawing in progress: the frame buffer so far and whether a pixel has been turned off. -/
structure Drawing where
  fb        : Frame
  collision : Bool
  deriving DecidableEq, Repr

/-- One sprite bit over the cell of column px and row py (R153): XOR, with a collision when an on pixel turns off.
A cell past the right or bottom edge is clipped (R151). -/
def drawBit (on : Bool) (px py : Nat) (d : Drawing) : Drawing :=
  if h : px < 64 ∧ py < 32 ∧ on = true then
    ⟨d.fb.set py (d.fb[py].set px (!d.fb[py][px])), d.collision || d.fb[py][px]⟩
  else d

/-- One sprite byte from column x0 on: bit 7 is the leftmost pixel (R152). -/
def drawRow (b : Byte) (x0 py : Nat) (d : Drawing) : Drawing :=
  (List.range 8).foldl (fun d c => drawBit (b.getLsbD (7 - c)) (x0 + c) py d) d

/-- The rows of a sprite, top row first, from row py on. -/
def drawRows : List Byte → Nat → Nat → Drawing → Drawing
  | [], _, _, d => d
  | b :: bs, x0, py, d => drawRows bs x0 (py + 1) (drawRow b x0 py d)

/-- The whole sprite over a frame buffer. -/
def drawSprite (bytes : List Byte) (x0 y0 : Nat) (fb : Frame) : Drawing := drawRows bytes x0 y0 ⟨fb, false⟩

/-- The start column: Vx, modulo 64 when `cfg.sprite_wrap_quirk` is set (R151). -/
def State.startX (s : State) (x : Reg) : Nat :=
  if s.cfg.spriteWrapQuirk then (s.getV x).toNat % 64 else (s.getV x).toNat

/-- The start row: Vy, modulo 32 when `cfg.sprite_wrap_quirk` is set (R151). -/
def State.startY (s : State) (y : Reg) : Nat :=
  if s.cfg.spriteWrapQuirk then (s.getV y).toNat % 32 else (s.getV y).toNat

/-- The sprite's `n` bytes from `I` on. -/
def State.spriteBytes (s : State) (n : Nibble) : List Byte := s.mem.load s.I.toNat n.val

/-- The drawing that Dxyn makes. -/
def State.drawing (s : State) (x y : Reg) (n : Nibble) : Drawing :=
  drawSprite (s.spriteBytes n) (s.startX x) (s.startY y) s.fb

/-- Dxyn (R150): all n row addresses are checked first, clipped rows too; the coordinates are read before VF is
written. -/
def execDrw (x y : Reg) (n : Nibble) (s : State) : Out :=
  let d := s.drawing x y n
  checkRange n.val s ((s.setFb d.fb).setV VF (flagByte d.collision)).advance

end Sys2Proof.Machine
end

