-- ==== Sys2Proof/Machine/IndexJumpRandom.lean ====
section
/-! DEFINITION. Families A, B, C: load index, jump with offset, random (44_index_jump_random.md). -/

namespace Sys2Proof.Machine

/-- Annn (R140). -/
def execLdI (nnn : Addr) (s : State) : Out := .next (s.setI (addrOf nnn)).advance

/-- Bnnn (R141): the sum is not reduced mod 4096 (it is at most 0x10FE). -/
def execJpV0 (nnn : Addr) (s : State) : Out :=
  .next (s.jump (addrOf nnn + (s.getV (s.jumpOffsetReg nnn)).setWidth 16))

/-- Cxnn (R142): the `rnd` input of this cycle AND `nn`. -/
def execRnd (x : Reg) (nn : Byte) (s : State) : Out := .next (s.setV x (s.env.inp.rnd &&& nn)).advance

end Sys2Proof.Machine
end

