-- ==== Sys2Proof/Machine/Keypad.lean ====
section
/-! DEFINITION. Family E and Fx0A: the keypad instructions (46_keypad_ops.md). -/

namespace Sys2Proof.Machine

/-- Ex9E (R160): skip if the key is down. -/
def execSkp (x : Reg) (s : State) : Out := .next (s.skipIf s.cur[s.keyOf x])

/-- ExA1 (R161): skip if the key is not down. -/
def execSknp (x : Reg) (s : State) : Out := .next (s.skipIf (!s.cur[s.keyOf x]))

/-- Fx0A (R162): the lowest key that qualifies into Vx; with none the outcome is waiting, no state change and `pc`
unchanged (40_cycle.md R89). -/
def execLdVxK (x : Reg) (s : State) : Out :=
  match s.firstKey with
  | some k => .next (s.setV x (BitVec.ofNat 8 k.val)).advance
  | none => .next s

end Sys2Proof.Machine
end

