-- ==== Sys2Proof/Machine/LoadAlu.lean ====
section
/-! DEFINITION. Families 6, 7, 8: load immediate, add immediate, register arithmetic and logic (43_load_alu.md).
Where Vx and VF are both written, the writes are in the order of R123. -/

namespace Sys2Proof.Machine

/-- 6xnn (R120). -/
def execLdImm (x : Reg) (nn : Byte) (s : State) : Out := .next (s.setV x nn).advance

/-- 7xnn (R121): wraps, writes no flag. -/
def execAddImm (x : Reg) (nn : Byte) (s : State) : Out := .next (s.setV x (addBytes (s.getV x) nn)).advance

/-- 8xy0 (R125). -/
def execLdReg (x y : Reg) (s : State) : Out := .next (s.setV x (s.getV y)).advance

/-- The result of a logic operation into Vx, then VF forced to 0 when `cfg.logic_quirk` is set (R126 to R128). -/
def logicResult (x : Reg) (r : Byte) (s : State) : Out :=
  .next ((s.setV x r).setVIf s.cfg.logicQuirk VF 0).advance

/-- 8xy1 (R126). -/
def execOrReg (x y : Reg) (s : State) : Out := logicResult x (s.getV x ||| s.getV y) s

/-- 8xy2 (R127). -/
def execAndReg (x y : Reg) (s : State) : Out := logicResult x (s.getV x &&& s.getV y) s

/-- 8xy3 (R128). -/
def execXorReg (x y : Reg) (s : State) : Out := logicResult x (s.getV x ^^^ s.getV y) s

/-- A result into Vx, then a flag into VF (R123): with `x = 0xF` the flag is what stays. -/
def resultThenFlag (x : Reg) (r : Byte) (f : Bool) (s : State) : Out :=
  .next ((s.setV x r).setV VF (flagByte f)).advance

/-- 8xy4 (R129): VF is the carry. -/
def execAddReg (x y : Reg) (s : State) : Out :=
  resultThenFlag x (addBytes (s.getV x) (s.getV y)) (carry (s.getV x) (s.getV y)) s

/-- 8xy5 (R130): VF is 1 when there is no borrow. -/
def execSub (x y : Reg) (s : State) : Out :=
  resultThenFlag x (subBytes (s.getV x) (s.getV y)) (noBorrow (s.getV x) (s.getV y)) s

/-- 8xy7 (R132): as 8xy5 with the operands exchanged; the destination is still Vx. -/
def execSubn (x y : Reg) (s : State) : Out :=
  resultThenFlag x (subBytes (s.getV y) (s.getV x)) (noBorrow (s.getV y) (s.getV x)) s

/-- The register a shift takes its source from: Vy, or Vx when `cfg.shift_quirk` is set (R131, R133). -/
def State.shiftSource (s : State) (x y : Reg) : Byte := if s.cfg.shiftQuirk then s.getV x else s.getV y

/-- The three writes of a shift in the order of R131 and R133: the source into Vx, the bit shifted out into VF, and
then the shift of Vx as it now stands (with `x = 0xF` it acts on the flag just written, R123). -/
def shiftVia (out : Byte → Byte) (shift : Byte → Byte) (x : Reg) (src : Byte) (s : State) : Out :=
  let flagged := (s.setV x src).setV VF (out src)
  .next (flagged.setV x (shift (flagged.getV x))).advance

/-- 8xy6 (R131). -/
def execShr (x y : Reg) (s : State) : Out :=
  shiftVia (fun v => flagByte (bit0 v)) shrByte x (s.shiftSource x y) s

/-- 8xyE (R133). -/
def execShl (x y : Reg) (s : State) : Out :=
  shiftVia (fun v => flagByte (bit7 v)) shlByte x (s.shiftSource x y) s

end Sys2Proof.Machine
end

