-- ==== Sys2Proof/Machine/Skips.lean ====
section
/-! DEFINITION. Families 3, 4, 5, 9: the register compare-and-skip instructions (42_skips.md). -/

namespace Sys2Proof.Machine

/-- 3xnn (R110). -/
def execSeImm (x : Reg) (nn : Byte) (s : State) : Out := .next (s.skipIf (s.getV x == nn))

/-- 4xnn (R111). -/
def execSneImm (x : Reg) (nn : Byte) (s : State) : Out := .next (s.skipIf (s.getV x != nn))

/-- 5xy0 (R112). -/
def execSeReg (x y : Reg) (s : State) : Out := .next (s.skipIf (s.getV x == s.getV y))

/-- 9xy0 (R113). -/
def execSneReg (x y : Reg) (s : State) : Out := .next (s.skipIf (s.getV x != s.getV y))

end Sys2Proof.Machine
end

