-- ==== Sys2Proof/Machine/SystemFlow.lean ====
section
/-! DEFINITION. Family 0, 1, 2: no-op, clear, return, jump, call (41_system_flow.md). -/

namespace Sys2Proof.Machine

/-- 0nnn (R100): a no-op; `nnn` is ignored. -/
def execSys (_nnn : Addr) (s : State) : Out := .next s.advance

/-- 00E0 (R101): every cell of the frame buffer off. -/
def execCls (s : State) : Out := .next (s.setFb Frame.blank).advance

/-- 00EE (R102): the popped entry is the address of the call; the 2 is added here. -/
def execRet (s : State) : Out :=
  match s.stack.getLast? with
  | none => raise .stackUnderflow s.pc.toNat s
  | some a => .next (s.dropTop.jump (a + 2))

/-- 1nnn (R103). -/
def execJp (nnn : Addr) (s : State) : Out := .next (s.jump (addrOf nnn))

/-- 2nnn (R104): pushes the address of this instruction; faults when the stack holds `STACK_DEPTH` entries. -/
def execCall (nnn : Addr) (s : State) : Out :=
  if s.stack.length = s.cfg.stackDepth then raise .stackOverflow s.pc.toNat s
  else .next ((s.push s.pc).jump (addrOf nnn))

end Sys2Proof.Machine
end

