-- ==== Sys2Proof/Machine/TimerIndexMemory.lean ====
section
/-! DEFINITION. Family F: timer, index and memory instructions (47_timer_index_memory_ops.md). -/

namespace Sys2Proof.Machine

/-- Fx07 (R170). -/
def execLdVxDT (x : Reg) (s : State) : Out := .next (s.setV x s.DT).advance

/-- Fx15 (R171). -/
def execLdDTVx (x : Reg) (s : State) : Out := .next (s.setDT (s.getV x)).advance

/-- Fx18 (R172). -/
def execLdSTVx (x : Reg) (s : State) : Out := .next (s.setST (s.getV x)).advance

/-- Fx1E (R173): wraps mod 65536, writes no flag. -/
def execAddI (x : Reg) (s : State) : Out :=
  .next (s.setI (BitVec.ofNat 16 ((s.I.toNat + (s.getV x).toNat) % 65536))).advance

/-- Fx29 (R175). -/
def execLdF (x : Reg) (s : State) : Out := .next (s.setI s.fontAddr[lowNibble (s.getV x)]).advance

/-- The decimal digits of a byte: hundreds, tens, ones (R176). -/
def bcdBytes (v : Byte) : List Byte :=
  [BitVec.ofNat 8 (v.toNat / 100), BitVec.ofNat 8 (v.toNat / 10 % 10), BitVec.ofNat 8 (v.toNat % 10)]

/-- Fx33 (R176). -/
def execLdB (x : Reg) (s : State) : Out :=
  checkRange 3 s (s.storeBytes s.I.toNat (bcdBytes (s.getV x))).advance

/-- The contents of V0 to Vx, V0 first. -/
def State.firstRegs (s : State) (x : Reg) : List Byte := s.V.toList.take (x.val + 1)

/-- `I` after Fx55 and Fx65: `(base + x + 1) mod 65536` when `cfg.memory_quirk` is set, else unchanged
(R177, R178). -/
def State.indexAfter (s : State) (x : Reg) : Word :=
  if s.cfg.memoryQuirk then BitVec.ofNat 16 ((s.I.toNat + x.val + 1) % 65536) else s.I

/-- Fx55 (R177): V0 to Vx to memory from `I` on. -/
def execStRegs (x : Reg) (s : State) : Out :=
  checkRange (x.val + 1) s ((s.storeBytes s.I.toNat (s.firstRegs x)).setI (s.indexAfter x)).advance

/-- The registers after V0 to Vx are loaded from memory at `base` on; those above Vx as they were (R178). -/
def State.loadedRegs (x : Reg) (base : Nat) (s : State) : Vector Byte 16 :=
  s.V.mapIdx fun i v => if i ≤ x.val then s.mem.read (base + i) else v

/-- V0 to Vx loaded from memory at `base` on (R178). -/
def State.loadRegs (x : Reg) (base : Nat) (s : State) : State := { s with V := s.loadedRegs x base }

/-- Fx65 (R178): V0 to Vx from memory from `I` on. -/
def execLdRegs (x : Reg) (s : State) : Out :=
  checkRange (x.val + 1) s ((s.loadRegs x s.I.toNat).setI (s.indexAfter x)).advance

end Sys2Proof.Machine
end

