-- ==== Sys2Proof/Machine/Cycle.lean ====
section
/-! DEFINITION. One `Cycle` transaction (40_cycle.md R81) over a state whose `env.inp` holds its inputs: fetch,
decode, deferral, execution, accounting and the frame boundary. -/

namespace Sys2Proof.Machine

/-! ### Fetch (40_cycle.md R84) -/

/-- The two bytes at `pc`. -/
def State.fetchBytes (s : State) : List Byte := s.mem.load s.pc.toNat 2

/-- `MemRead(pc, 2)`: the byte at the lower address is the high byte (20_memory.md R42). -/
def State.fetchWord (s : State) : Word := bytesWord (s.mem.read s.pc.toNat) (s.mem.read (s.pc.toNat + 1))

/-! ### Cost and deferral (40_cycle.md R86, R87) -/

/-- `COST(kind)`. -/
def State.costOf (s : State) (i : Instr) : Nat := s.cfg.cost[opRow i]

/-- The cost would overrun the frame budget: strictly greater. -/
def State.defers (s : State) (i : Instr) : Bool := decide (s.cfg.frameBudget < s.acc + s.costOf i)

/-! ### Accounting and the frame boundary (60_exceptions.md R221, R222) -/

/-- What `acc` comes to at step S7: the charged cost and the real duration of the cycle. -/
def State.spent (charged : Nat) (s : State) : Nat := s.acc + charged + s.env.inp.dt

/-- Steps S7 and S8: the sum, and where it exceeds the budget the one frame boundary of this cycle: both timers
tick, `frame_ready` is set, `acc` is 0. -/
def State.account (charged : Nat) (s : State) : State :=
  { s with
    DT         := if s.cfg.frameBudget < s.spent charged then tick s.DT else s.DT
    ST         := if s.cfg.frameBudget < s.spent charged then tick s.ST else s.ST
    frameReady := if s.cfg.frameBudget < s.spent charged then true else s.frameReady
    acc        := if s.cfg.frameBudget < s.spent charged then 0 else s.spent charged }

/-- After the instruction rule: a fault ends the cycle, otherwise (executed or waiting) the cost is charged. -/
def settle (charged : Nat) : Out → Out
  | .next s =>
    match s.status with
    | .running => .next (s.account charged)
    | .halted _ => .next s
  | .fault r => .fault r
  | .refused r => .refused r

/-! ### The cycle -/

/-- Steps S4 to S8 for a decoded instruction: deferred, or run and settled. -/
def runDecoded (i : Instr) (s : State) : Out :=
  if s.defers i then .next (s.account 0) else settle (s.costOf i) (exec i s)

/-- Steps S2 to S8 of a block that is Running, in the priority of 60_exceptions.md R206. -/
def cycleRunning (s : State) : Out :=
  if 0xFFE < s.pc.toNat then raise .memoryOutOfBounds s.pc.toNat s
  else
    match decode s.fetchBytes with
    | .ok (i, _) => runDecoded i s
    | .error _ => raise .unknownOpcode s.fetchWord.toNat s

/-- Steps S0 to S8: a Halted block idles (40_cycle.md R82). Step S1 is `State.live` of the inputs (R83). -/
def cycle (s : State) : Out :=
  match s.status with
  | .running => cycleRunning s
  | .halted _ => .next s

end Sys2Proof.Machine
end

