-- ==== Sys2Proof/Machine/Transactions.lean ====
section
/-! DEFINITION. The six transactions of the host and its collaborators (60_exceptions.md R230) and the model's
record of which come next (log entries 3, 4, 5 and 6). -/

namespace Sys2Proof.Machine

/-! ### Construct (70_reset_and_hazards.md R240 to R244) -/

/-- The largest program that fits in 0x200 to 0xFFF (R240). -/
abbrev maxProgram : Nat := 3584

/-- The constraints of R240 and 00_scope.md R7 on a configuration. -/
def configLegal (c : Config) : Bool :=
  decide (c.fontBase ≤ 0x1B0) && decide (0 < c.frameBudget) && decide (1 ≤ c.stackDepth)
    && c.cost.toList.all fun k => decide (k ≤ c.frameBudget)

/-- The arguments that R240 admits. -/
def constructLegal (program : List Byte) (c : Config) : Bool :=
  configLegal c && decide (program.length ≤ maxProgram)

/-- Memory after construction: the glyphs (R241), the program (R243), 0 elsewhere. -/
def constructedMemory (program : List Byte) (c : Config) : Memory :=
  (Memory.store [] c.fontBase c.fontGlyphs.toList).store entryPoint program

/-- The block right after `Construct(program, cfg)` (R241, R243, R244), in the outside world of `e`. -/
def constructed (program : List Byte) (c : Config) (e : Env) : State where
  V          := Vector.replicate 16 0
  I          := 0
  pc         := BitVec.ofNat 16 entryPoint
  stack      := []
  DT         := 0
  ST         := 0
  mem        := constructedMemory program c
  fb         := Frame.blank
  cur        := Vector.replicate 16 false
  shadow     := Vector.replicate 16 false
  relTs      := Vector.replicate 16 0
  fontAddr   := fontTable c.fontBase
  acc        := 0
  frameReady := false
  status     := .running
  cfg        := c
  env        := e

/-! ### Key events and the acknowledgement -/

/-- `KeyDown(k)` (60_exceptions.md R225). -/
def State.pressKey (k : Key) (s : State) : State := { s with cur := s.cur.set k true }

/-- `KeyUp(k, t)` (60_exceptions.md R226). -/
def State.releaseKey (k : Key) (t : Nat) (s : State) : State :=
  { s with cur := s.cur.set k false, shadow := s.shadow.set k true, relTs := s.relTs.set k t }

/-- `AckFrame()` (60_exceptions.md R231). -/
def State.ackFrame (s : State) : State := { s with frameReady := false }

/-! ### Time (60_exceptions.md R233 duty 3) -/

/-- The earliest start of the next cycle: not before the latest `Cycle` or `KeyUp`, and not before the latest cycle
ended. -/
def State.earliestCycle (s : State) : Nat := max s.env.lastEvent (s.env.inp.t + s.env.inp.dt)

/-- The inputs of a cycle taken when no transaction is pending: free values within duty 3. -/
def State.freeInput (s : State) : CycleInput :=
  ⟨s.earliestCycle + Config.freeGap s.env.draws, Config.freeDt s.env.draws, Config.freeRnd s.env.draws⟩

/-! ### The record of the outside world -/

/-- The state with the inputs of the cycle that begins, and the transactions that come after it. -/
def State.latch (inp : CycleInput) (rest : List Transaction) (s : State) : State :=
  { s with env := { s.env with pending := rest, inp := inp, lastEvent := inp.t } }

/-- The state with the inputs of a cycle taken with free values. -/
def State.latchFree (s : State) : State :=
  { s with env := { s.env with
      pending := [], inp := s.freeInput, lastEvent := s.freeInput.t, draws := s.env.draws + 1 } }

/-- The state with the transactions that come after one that carries no time. -/
def State.withPending (rest : List Transaction) (s : State) : State :=
  { s with env := { s.env with pending := rest } }

/-- The state after a `KeyUp` at time t is taken off the list. -/
def State.withEvent (t : Nat) (rest : List Transaction) (s : State) : State :=
  { s with env := { s.env with pending := rest, lastEvent := t } }

/-! ### One transaction -/

/-- One transaction, with the transactions that come after it. -/
def transact (tx : Transaction) (rest : List Transaction) (s : State) : Out :=
  match tx with
  | .construct program c =>
    if constructLegal program c then .next (constructed program c { s.env with pending := rest })
    else .refused .illegalConstruct
  | .reset => .next (s.withPending rest).resetBlock
  | .keyDown k => .next ((s.withPending rest).pressKey k)
  | .keyUp k t =>
    if s.env.lastEvent ≤ t then .next ((s.withEvent t rest).releaseKey k t)
    else .refused .timeRunsBackwards
  | .cycle inp =>
    if s.earliestCycle ≤ inp.t then cycle (s.latch inp rest)
    else .refused .timeRunsBackwards
  | .ackFrame => .next (s.withPending rest).ackFrame

end Sys2Proof.Machine
end

