-- ==== Sys2Proof/Machine/Step.lean ====
section
/-! DEFINITION. One step of the machine: one transaction. -/

namespace Sys2Proof.Machine

/-- The oldest pending transaction, or, with none pending, a `Cycle` with free inputs (log entries 3 and 4). -/
def step (s : State) : Host.Outcome State Fault Refusal :=
  match s.env.pending with
  | [] => cycle s.latchFree
  | tx :: rest => transact tx rest s

/-- The state with one instruction where the next step fetches it (log entry 22): stored at `pc` (at 0x200 when `pc`
is past the last fetchable address), the block Running, nothing in the accumulator that could defer it, and no
transaction before the cycle. -/
def State.withFetchWord (s : State) (nbits w : Nat) : State :=
  let pc := if s.pc.toNat ≤ 0xFFE then s.pc else BitVec.ofNat 16 entryPoint
  { s with
    pc     := pc
    mem    := s.mem.store pc.toNat (wordBytes (tableWord nbits w))
    acc    := 0
    status := .running
    env    := { s.env with pending := [] } }

end Sys2Proof.Machine
end

