-- ==== Sys2Proof/Safety.lean ====
section
/-! DEFINITION. The terms claims use: frames, the invariant of the machine, the pixels of a sprite, and what a
cycle starts from. -/

namespace Sys2Proof.Machine

/-! ### Frames -/

/-- Every byte of memory reads as before. -/
def SameMemory (s t : State) : Prop := ∀ a, t.readByte a = s.readByte a

/-- Nothing but general registers and `pc` differs. -/
def OnlyRegsAndPc (s t : State) : Prop := t = { s with V := t.V, pc := t.pc } ∧ SameMemory s t

/-- Every general register but those listed is unchanged. -/
def RegsKept (changed : List Reg) (s t : State) : Prop := ∀ r, r ∉ changed → t.getV r = s.getV r

/-- Halted with the fault, and nothing else differs (60_exceptions.md R204). -/
def haltedWith (kind : FaultKind) (info : Nat) (s : State) : State := { s with status := .halted ⟨kind, info⟩ }

/-- The instruction completes and advances: it answers a next state that satisfies `P`, `pc` moves by 2, no
register but those listed changes, and nothing else at all. -/
def RegisterEffect (o : Out) (s : State) (changed : List Reg) (P : State → Prop) : Prop :=
  ∃ t, o = .next t ∧ P t ∧ RegsKept changed s t ∧ t.pc = s.pc + 2 ∧ OnlyRegsAndPc s t

/-! ### What a cycle starts from -/

/-- The next step is a `Cycle`, and `s1` is the state with its inputs latched: the pending list is empty, or its
first transaction is a cycle whose time keeps duty 3 of 60_exceptions.md R233. -/
def CycleBegins (s s1 : State) : Prop :=
  (s.env.pending = [] ∧ s1 = s.latchFree) ∨
  ∃ inp rest, s.env.pending = .cycle inp :: rest ∧ s.earliestCycle ≤ inp.t ∧ s1 = s.latch inp rest

/-- The block is Running and the word at `pc` is in range and decodes to `i`. -/
def Fetches (s : State) (i : Instr) : Prop :=
  s.status = .running ∧ s.pc.toNat ≤ 0xFFE ∧ decodeOp s.fetchWord = some i

/-- `u` is the state after step S6 of a cycle that is neither fatal nor idle, and `charged` its virtual cost: the
instruction was deferred and nothing has changed (cost 0), or its rule ran, executed or waiting (40_cycle.md R81,
R87, R89). -/
def AfterInstruction (s1 : State) (i : Instr) (u : State) (charged : Nat) : Prop :=
  Fetches s1 i ∧
  ((s1.cfg.frameBudget < s1.acc + s1.costOf i ∧ u = s1 ∧ charged = 0) ∨
   (s1.acc + s1.costOf i ≤ s1.cfg.frameBudget ∧ exec i s1 = .next u ∧ u.status = .running ∧
     charged = s1.costOf i))

/-- The next transaction neither builds the block anew nor resets it. -/
def NoReinitialisation (s : State) : Prop :=
  (∀ program c rest, s.env.pending ≠ .construct program c :: rest) ∧ ∀ rest, s.env.pending ≠ .reset :: rest

/-- `s` with its pending list cut to what comes after the first transaction. -/
def tailEnv (s : State) (rest : List Transaction) : Env := { s.env with pending := rest }

/-! ### The invariant -/

/-- What holds of the block between transactions: memory in canonical form (20_memory.md R40), `acc` within the
budget (10_state.md R24), the stack within its depth and its entries fetchable addresses (R15, R16), `pc` at most
0x10FE (R15), a legal configuration (70_reset_and_hazards.md R240), the font table of the configuration (R23). -/
structure State.Inv (s : State) : Prop where
  memory  : s.mem.wf
  acc     : s.acc ≤ s.cfg.frameBudget
  depth   : s.stack.length ≤ s.cfg.stackDepth
  entries : ∀ a ∈ s.stack, a.toNat ≤ 0xFFE
  pc      : s.pc.toNat ≤ 0x10FE
  legal   : configLegal s.cfg = true
  font    : s.fontAddr = fontTable s.cfg.fontBase

/-! ### Sprites (45_draw.md) -/

/-- The pixel of column px and row py. -/
def Frame.pixel (f : Frame) (px : Fin 64) (py : Fin 32) : Bool := f[py][px]

/-- The sprite of these bytes at start column x0 and start row y0 has a 1 bit over column px and row py: bit 7 of
the byte of row `py - y0` is over column x0, bit 0 over column `x0 + 7` (R150, R152). Natural-number sums: nothing
wraps (R151). -/
def spriteBit (bytes : List Byte) (x0 y0 px py : Nat) : Bool :=
  decide (x0 ≤ px) && decide (px < x0 + 8) && decide (y0 ≤ py)
    && (bytes.getD (py - y0) 0).getLsbD (7 - (px - x0))

/-! ### Runs -/

/-- `k` steps, stopping at the first that gives no next state. -/
def runSteps : Nat → State → Out
  | 0, s => .next s
  | k + 1, s =>
    match step s with
    | .next t => runSteps k t
    | .fault r => .fault r
    | .refused r => .refused r

/-- Two states that differ at most in `ST` and `frame_ready`, the two pieces of state that no program observes
(10_state.md R29 (d)). -/
def SameToProgram (s t : State) : Prop := t = { s with ST := t.ST, frameReady := t.frameReady }

end Sys2Proof.Machine
end

