-- ==== Sys2Proof/Certificates/Slice0/Obligations.lean ====
section
/-! DEFINITION. The statements for the provers. Each docstring names the rule of spec/ it formalises, or says which
clause is a decision of the spec (92_eei_decisions.md) or of the model (a log entry). -/

open Sys2Proof Sys2Proof.Machine

/-! ### Encoding (30_encoding.md) -/

/-- Decoding the word, or the bytes, of a well-formed instruction gives it back with every operand (R61 to R65). -/
def Obligations.DecodeOfEncodeIsTheInstruction : Prop :=
  ∀ (i : Instr) (rest : List Byte), i.wf = true →
    decodeOp (encode i) = some i ∧ decode (encodeBytes i ++ rest) = .ok (i, rest)

/-- "No bit of any instruction is a don't-care" (R67): a word that decodes is the word of what it decodes to. -/
def Obligations.EncodeOfDecodeIsTheWord : Prop :=
  ∀ (op : Word) (i : Instr), decodeOp op = some i → i.wf = true ∧ encode i = op

/-- The words that select no instruction are exactly those listed in R66 (without its counts). Exact matching is the
spec's own decision D16. -/
def Obligations.UnknownWordsAreThoseListed : Prop :=
  ∀ op : Word, decodeOp op = none ↔
    (op.toNat / 4096 = 0x5 ∧ op.toNat % 16 ≠ 0) ∨
    (op.toNat / 4096 = 0x8 ∧ op.toNat % 16 ∈ [0x8, 0x9, 0xA, 0xB, 0xC, 0xD, 0xF]) ∨
    (op.toNat / 4096 = 0x9 ∧ op.toNat % 16 ≠ 0) ∨
    (op.toNat / 4096 = 0xE ∧ op.toNat % 256 ∉ [0x9E, 0xA1]) ∨
    (op.toNat / 4096 = 0xF ∧ op.toNat % 256 ∉ [0x07, 0x0A, 0x15, 0x18, 0x1E, 0x29, 0x33, 0x55, 0x65])

/-- The decoder and the table of R64: a decoded word is selected by the row of its instruction and by no earlier
row; a word that does not decode is selected by no row; two different rows select one word only among the three of
family 0. That a row selects by exactly the bits its pattern writes is the spec's own decision D16 (log entry 18). -/
def Obligations.DecodeFollowsTheOpcodeTable : Prop :=
  (∀ (op : Word) (i : Instr), decodeOp op = some i →
    (opcodeTable[opRow i]).selects op = true ∧
    ∀ r : Fin 35, r < opRow i → (opcodeTable[r]).selects op = false) ∧
  (∀ op : Word, decodeOp op = none → ∀ r : Fin 35, (opcodeTable[r]).selects op = false) ∧
  (∀ (op : Word) (r r' : Fin 35), (opcodeTable[r]).selects op = true → (opcodeTable[r']).selects op = true →
    r ≠ r' → r.val ≤ 2 ∧ r'.val ≤ 2)

/-- Words written out from the rows of R64, at least one for each of the 16 families that the top nibble selects (R61),
and two words that select no instruction (exact matching is the spec's own decision D16, log entry 18). -/
def Obligations.TableWordsDecode : Prop :=
  decodeOp 0x00E0 = some .cls ∧ decodeOp 0x00EE = some .ret ∧ decodeOp 0x00E1 = some (.sys 0x0E1) ∧
  decodeOp 0x1ABC = some (.jp 0xABC) ∧ decodeOp 0x2345 = some (.call 0x345) ∧
  decodeOp 0x3A2F = some (.seImm 0xA 0x2F) ∧ decodeOp 0x4E2A = some (.sneImm 0xE 0x2A) ∧
  decodeOp 0x5120 = some (.seReg 1 2) ∧ decodeOp 0x6A7F = some (.ldImm 0xA 0x7F) ∧
  decodeOp 0x7102 = some (.addImm 1 0x02) ∧ decodeOp 0x8127 = some (.subn 1 2) ∧
  decodeOp 0x812E = some (.shl 1 2) ∧ decodeOp 0x9AB0 = some (.sneReg 0xA 0xB) ∧
  decodeOp 0xA2F0 = some (.ldI 0x2F0) ∧ decodeOp 0xB234 = some (.jpV0 0x234) ∧
  decodeOp 0xC30F = some (.rnd 3 0x0F) ∧ decodeOp 0xD12F = some (.drw 1 2 15) ∧
  decodeOp 0xE0A1 = some (.sknp 0) ∧ decodeOp 0xF11E = some (.addI 1) ∧ decodeOp 0xFF55 = some (.stRegs 15) ∧
  decodeOp 0x8128 = none ∧ decodeOp 0xF11F = none

/-! ### The cycle and the step (40_cycle.md) -/

/-- The fetched word is big-endian (20_memory.md R42), and the fetched bytes decode as that word does. -/
def Obligations.FetchIsBigEndian : Prop :=
  ∀ s : State,
    s.fetchWord.toNat = (s.readByte s.pc.toNat).toNat * 256 + (s.readByte (s.pc.toNat + 1)).toNat ∧
    ∀ i, decode s.fetchBytes = .ok (i, []) ↔ decodeOp s.fetchWord = some i

/-- A step of a Running block runs the decoded instruction: deferred when its cost would overrun the budget,
otherwise `exec` of it, charged when the block is still Running after it, and ended there when it faulted (R81).
The charging is the spec's own: a deferred cycle charges no cost (decision D5), the real duration is added after the
instruction (D6), a waiting Fx0A is charged (D7), a fatal cycle is not accounted (D27), all log entry 19; that deferral
comes before the instruction's own fault is D10, log entry 18. -/
def Obligations.StepRunsTheDecodedInstruction : Prop :=
  ∀ (s s1 : State) (i : Instr), CycleBegins s s1 → Fetches s1 i →
    (s1.cfg.frameBudget < s1.acc + s1.costOf i → step s = .next (s1.account 0)) ∧
    (s1.acc + s1.costOf i ≤ s1.cfg.frameBudget →
      step s = settle (s1.costOf i) (exec i s1) ∧
      ∀ t, exec i s1 = .next t →
        (t.status = .running → step s = .next (t.account (s1.costOf i))) ∧
        ∀ f, t.status = .halted f → step s = .next t)

/-- The model's interface (log entry 22): a word of a well-formed instruction whose cost is within the budget, put
where the next step fetches, is what the next step runs. -/
def Obligations.WithFetchWordRunsTheInstruction : Prop :=
  ∀ (s : State) (i : Instr), i.wf = true → s.cfg.cost[opRow i] ≤ s.cfg.frameBudget →
    let s0 := s.withFetchWord 16 (encode i).toNat
    CycleBegins s0 s0.latchFree ∧ Fetches s0.latchFree i ∧
    step s0 = settle (s.cfg.cost[opRow i]) (exec i s0.latchFree)

/-- A Halted block idles: nothing of the block changes (R82; the spec's own decision D11, log entry 20). -/
def Obligations.HaltedBlockIdles : Prop :=
  ∀ (s s1 : State) (f : FaultRecord), CycleBegins s s1 → s.status = .halted f →
    step s = .next s1 ∧ s1 = { s with env := s1.env }

/-- A deferred cycle performs no state mutation and charges no cost; only the real duration is added, with the frame
boundary it may bring (R87; charging nothing is the spec's own decision D5, log entry 19, the order its decision D10,
log entry 18). -/
def Obligations.DeferredCycleMutatesNothing : Prop :=
  ∀ (s s1 : State) (i : Instr), CycleBegins s s1 → Fetches s1 i →
    s1.cfg.frameBudget < s1.acc + s1.costOf i →
    ∃ t, step s = .next t ∧
      t = { s1 with DT := t.DT, ST := t.ST, frameReady := t.frameReady, acc := t.acc } ∧
      (s1.acc + s1.env.inp.dt ≤ s1.cfg.frameBudget →
        t.DT = s1.DT ∧ t.ST = s1.ST ∧ t.frameReady = s1.frameReady ∧ t.acc = s1.acc + s1.env.inp.dt)

/-- The frame boundary (60_exceptions.md R222): after the charged cost and the real duration are added, and only
where the sum exceeds the budget strictly, both timers lose 1 (never below 0), `frame_ready` is set and `acc` is 0;
`buzzer_active` falls in the cycle in which `ST` goes from 1 to 0.
What is added before the test is the spec's own, log entry 19: no cost for a deferred cycle (decision D5), the real
duration after the instruction (D6), the full cost for a waiting Fx0A (D7). -/
def Obligations.FrameBoundaryTicksBothTimersOnce : Prop :=
  ∀ (s s1 u : State) (i : Instr) (charged : Nat), CycleBegins s s1 → AfterInstruction s1 i u charged →
    ∃ t, step s = .next t ∧
      (u.acc + charged + s1.env.inp.dt ≤ s1.cfg.frameBudget →
        t = { u with acc := u.acc + charged + s1.env.inp.dt }) ∧
      (s1.cfg.frameBudget < u.acc + charged + s1.env.inp.dt →
        t = { u with DT := t.DT, ST := t.ST, frameReady := true, acc := 0 } ∧
        t.DT.toNat = u.DT.toNat - 1 ∧ t.ST.toNat = u.ST.toNat - 1 ∧
        (u.ST = 1 → u.buzzerActive = true ∧ t.buzzerActive = false))

/-- `DT` and `ST` (60_exceptions.md R220): outside reset and construction a step leaves each as it is, or takes 1 from
it at a frame boundary while it is above 0, or is a cycle that fetched the one instruction that writes it. -/
def Obligations.TimersChangeOnlyByTickOrTheirLoad : Prop :=
  ∀ s t : State, NoReinitialisation s → step s = .next t →
    (t.DT = s.DT ∨ (0 < s.DT.toNat ∧ t.DT.toNat + 1 = s.DT.toNat ∧ t.acc = 0 ∧ t.frameReady = true) ∨
      ∃ s1 x, CycleBegins s s1 ∧ Fetches s1 (.ldDTVx x)) ∧
    (t.ST = s.ST ∨ (0 < s.ST.toNat ∧ t.ST.toNat + 1 = s.ST.toNat ∧ t.acc = 0 ∧ t.frameReady = true) ∨
      ∃ s1 x, CycleBegins s s1 ∧ Fetches s1 (.ldSTVx x))

/-! ### Fatal conditions (60_exceptions.md) -/

/-- A fetch with `pc > 0xFFE` halts the block with the address, whatever `acc` is, and nothing is accounted: `acc`, the
timers and `frame_ready` stay (R84, R92, R204; the halt before the deferral test is the spec's own decision D10, log
entry 18, the fatal cycle without accounting its decision D27, log entry 19, and what the halt records D11, log entry
20). -/
def Obligations.FetchPastMemoryHalts : Prop :=
  ∀ s s1 : State, CycleBegins s s1 → s.status = .running → 0xFFE < s.pc.toNat →
    step s = .next (haltedWith .memoryOutOfBounds s.pc.toNat s1)

/-- A word that selects no instruction halts the block with the word, `pc` still at its address, whatever `acc` is,
and nothing is accounted (R202; the halt before the deferral test, R85, is the spec's own decision D10, log entry 18,
and the fatal cycle without accounting, R92, its decision D27, log entry 19). -/
def Obligations.UnknownOpcodeHalts : Prop :=
  ∀ s s1 : State, CycleBegins s s1 → s1.status = .running → s1.pc.toNat ≤ 0xFFE → decodeOp s1.fetchWord = none →
    ∃ t, step s = .next t ∧ t = haltedWith .unknownOpcode s1.fetchWord.toNat s1 ∧ t.pc = s.pc

/-- Faults are precise and atomic (R207): a cycle of a Running block that ends Halted has changed nothing but the
status (and the model's record of the outside world), and `pc` is the address of the faulting instruction. That the
whole cycle, and not its instruction alone, changes nothing (`acc`, the timers and `frame_ready` stay: R92, R204) is
the spec's own decisions D27 and D11, log entries 19 and 20. -/
def Obligations.FaultsArePreciseAndAtomic : Prop :=
  ∀ (s s1 t : State) (f : FaultRecord), CycleBegins s s1 → s.status = .running → step s = .next t →
    t.status = .halted f → t = { s with status := .halted f, env := s1.env } ∧ t.pc = s.pc

/-- Every fault of a cycle has one of the causes of the table of R200, in the priority of R206, with the information
word of that table (StackOverflow, the data case and the order are the spec's own decisions D8, D9, D10, log entry 18,
the codes and information words its decision D11, log entry 20). -/
def Obligations.EveryFaultHasItsListedCause : Prop :=
  ∀ (s s1 t : State) (kind : FaultKind) (info : Nat), CycleBegins s s1 → s.status = .running →
    step s = .next t → t.status = .halted ⟨kind, info⟩ →
    (0xFFE < s.pc.toNat ∧ kind = .memoryOutOfBounds ∧ info = s.pc.toNat) ∨
    (s.pc.toNat ≤ 0xFFE ∧ decodeOp s.fetchWord = none ∧ kind = .unknownOpcode ∧ info = s.fetchWord.toNat) ∨
    (∃ i, Fetches s1 i ∧ s1.acc + s1.costOf i ≤ s1.cfg.frameBudget ∧
      ((i = .ret ∧ s.stack = [] ∧ kind = .stackUnderflow ∧ info = s.pc.toNat) ∨
       (∃ nnn, i = .call nnn ∧ s.stack.length = s.cfg.stackDepth ∧ kind = .stackOverflow ∧ info = s.pc.toNat) ∨
       (∃ n, ((∃ x y m, i = .drw x y m ∧ n = m.val) ∨ (∃ x, i = .ldB x ∧ n = 3) ∨
              (∃ x, i = .stRegs x ∧ n = x.val + 1) ∨ (∃ x, i = .ldRegs x ∧ n = x.val + 1)) ∧
          0 < n ∧ 0xFFF < s.I.toNat + (n - 1) ∧ kind = .memoryOutOfBounds ∧ info = max s.I.toNat 0x1000)))

/-- No instruction is turned away: every one of the 35 answers a next state in every state (a fault is the next state
Halted, R204; log entry 7). -/
def Obligations.EveryInstructionAnswersANextState : Prop :=
  ∀ (i : Instr) (s : State), ∃ t, exec i s = .next t

/-- The model's own stops (log entries 5 and 6): a step gives a next state, or the first pending transaction is a
`Construct` whose arguments are not legal, or a `Cycle` or `KeyUp` whose time runs backwards. -/
def Obligations.StepStopsOnlyForABrokenDuty : Prop :=
  ∀ s : State, (∃ t, step s = .next t) ∨
    (∃ program c rest, s.env.pending = .construct program c :: rest ∧ constructLegal program c = false ∧
      step s = .refused .illegalConstruct) ∨
    (∃ inp rest, s.env.pending = .cycle inp :: rest ∧
      (inp.t < s.env.lastEvent ∨ inp.t < s.env.inp.t + s.env.inp.dt) ∧ step s = .refused .timeRunsBackwards) ∨
    (∃ k u rest, s.env.pending = .keyUp k u :: rest ∧ u < s.env.lastEvent ∧ step s = .refused .timeRunsBackwards)

/-! ### Invariants and whole-machine rules -/

/-- The invariant holds right after reset (log entries 1, 9 and 10 say what `State.reset` is). -/
def Obligations.InvariantHoldsAtReset : Prop := State.reset.Inv

/-- Every step keeps the invariant: canonical memory, `acc` within the budget, the stack within its depth with
fetchable entries, `pc` at most 0x10FE, a legal configuration and its font table.
The stack depth is the spec's own decision D8 (log entry 18), the layout of the font table and the bound on
`font_base` its decision D15 (log entry 20), the bounds on `pc` (R15) and `acc` (R24) inferences it marks as derived;
the clause of the legal configuration, costs within the budget included, is the choice of log entry 6. -/
def Obligations.EveryStepKeepsTheInvariant : Prop :=
  ∀ s t : State, s.Inv → step s = .next t → t.Inv

/-- The configuration is "immutable thereafter" (00_scope.md R6) and the font table "never changes, not even at reset"
(10_state.md R23): only a new `Construct` replaces them (log entry 21). -/
def Obligations.OnlyConstructChangesTheConfiguration : Prop :=
  ∀ s t : State, (∀ program c rest, s.env.pending ≠ .construct program c :: rest) → step s = .next t →
    t.cfg = s.cfg ∧ t.fontAddr = s.fontAddr

/-- The only stores to memory (20_memory.md R45): outside a `Construct` a byte differs after a step only when the step
was a cycle that fetched Fx33 or Fx55, and only among the bytes that instruction addresses. -/
def Obligations.OnlyFx33AndFx55StoreToMemory : Prop :=
  ∀ (s t : State) (a : Nat), (∀ program c rest, s.env.pending ≠ .construct program c :: rest) →
    step s = .next t → t.readByte a ≠ s.readByte a →
    ∃ s1, CycleBegins s s1 ∧
      ((∃ x, Fetches s1 (.ldB x) ∧ s.I.toNat ≤ a ∧ a ≤ s.I.toNat + 2) ∨
       (∃ x, Fetches s1 (.stRegs x) ∧ s.I.toNat ≤ a ∧ a ≤ s.I.toNat + x.val))

/-- What a cycle writes outside registers and memory: the frame buffer only by 00E0 and Dxyn (10_state.md R20), the
stack only by 2nnn and 00EE (R16), the keypad arrays never (60_exceptions.md R228). -/
def Obligations.WhatACycleMayWrite : Prop :=
  ∀ s s1 t : State, CycleBegins s s1 → step s = .next t →
    (t.fb = s.fb ∨ Fetches s1 .cls ∨ ∃ x y n, Fetches s1 (.drw x y n)) ∧
    (t.stack = s.stack ∨ Fetches s1 .ret ∨ ∃ nnn, Fetches s1 (.call nnn)) ∧
    t.cur = s.cur ∧ t.shadow = s.shadow ∧ t.relTs = s.relTs

/-- A program does not observe `ST` and `frame_ready` at all (10_state.md R29 (d), which the spec marks as derived):
two states that differ only in them take steps to states that differ only in them, and stop alike. -/
def Obligations.SoundTimerAndFrameReadyAreUnobservable : Prop :=
  ∀ s1 s2 : State, SameToProgram s1 s2 →
    (∀ t1, step s1 = .next t1 → ∃ t2, step s2 = .next t2 ∧ SameToProgram t1 t2) ∧
    (∀ r, step s1 = .refused r → step s2 = .refused r)

/-- A cost above the budget never runs (70_reset_and_hazards.md R254): however many cycles are taken, the instruction
stays where it is and only the timers, `frame_ready` and `acc` move. The spec marks R254 as derived; that a deferred
cycle charges nothing is its own decision D5 (log entry 19). -/
def Obligations.CostAboveTheBudgetNeverRuns : Prop :=
  ∀ (k : Nat) (s t : State) (i : Instr), s.env.pending = [] → Fetches s i → s.cfg.frameBudget < s.costOf i →
    runSteps k s = .next t →
    t = { s with DT := t.DT, ST := t.ST, frameReady := t.frameReady, acc := t.acc, env := t.env } ∧
    t.env.pending = []

/-! ### Families 0, 1, 2 (41_system_flow.md) -/

/-- 0nnn is a no-op that advances `pc` by 2 and changes nothing else (R100). -/
def Obligations.SysIsANoOp : Prop :=
  ∀ (nnn : Addr) (s : State), exec (.sys nnn) s = .next { s with pc := s.pc + 2 }

/-- 00E0 clears all 2048 cells and writes nothing else: VF and `frame_ready` stay (R101). -/
def Obligations.ClsClearsTheFrameBuffer : Prop :=
  ∀ s : State, ∃ t, exec .cls s = .next t ∧ (∀ j : Fin 2048, t.fb.cell j = false) ∧
    t = { s with fb := t.fb, pc := s.pc + 2 } ∧ SameMemory s t

/-- 00EE pops the address of the call and goes to the instruction after it; on an empty stack it halts with `pc` and
changes nothing (R102). -/
def Obligations.RetReturnsAfterTheCall : Prop :=
  ∀ s : State,
    (∀ (below : List Word) (a : Word), s.stack = below ++ [a] →
      exec .ret s = .next { s with stack := below, pc := a + 2 }) ∧
    (s.stack = [] → exec .ret s = .next (haltedWith .stackUnderflow s.pc.toNat s))

/-- 1nnn sets `pc` to nnn and changes nothing else (R103). -/
def Obligations.JpJumps : Prop :=
  ∀ (nnn : Addr) (s : State), ∃ t, exec (.jp nnn) s = .next t ∧ t.pc.toNat = nnn.toNat ∧ t = { s with pc := t.pc }

/-- 2nnn pushes its own address and jumps; on a full stack it halts with `pc` and changes nothing (R104; the bound is
the spec's own decision D8, log entry 18). -/
def Obligations.CallPushesItsOwnAddress : Prop :=
  ∀ (nnn : Addr) (s : State),
    (s.stack.length ≠ s.cfg.stackDepth → ∃ t, exec (.call nnn) s = .next t ∧ t.stack = s.stack ++ [s.pc] ∧
      t.pc.toNat = nnn.toNat ∧ t = { s with stack := t.stack, pc := t.pc } ∧ SameMemory s t) ∧
    (s.stack.length = s.cfg.stackDepth →
      exec (.call nnn) s = .next (haltedWith .stackOverflow s.pc.toNat s))

/-- A return with the stack as the call left it comes back to the instruction after the call, with the stack as it was
before the call (R102, R104; that the stack has room is asked by the spec's own decision D8, log entry 18). -/
def Obligations.ReturnUndoesCall : Prop :=
  ∀ (nnn : Addr) (s t u : State), s.stack.length ≠ s.cfg.stackDepth → exec (.call nnn) s = .next t →
    u.stack = t.stack → ∃ w, exec .ret u = .next w ∧ w.pc = s.pc + 2 ∧ w.stack = s.stack

/-! ### Families 3, 4, 5, 9 (42_skips.md) -/

/-- The four register skips: `pc + 4` when the condition holds, `pc + 2` otherwise, nothing else changed (R110 to
R113). -/
def Obligations.RegisterSkips : Prop :=
  ∀ (x y : Reg) (nn : Byte) (s : State),
    exec (.seImm x nn) s = .next { s with pc := if s.getV x = nn then s.pc + 4 else s.pc + 2 } ∧
    exec (.sneImm x nn) s = .next { s with pc := if s.getV x ≠ nn then s.pc + 4 else s.pc + 2 } ∧
    exec (.seReg x y) s = .next { s with pc := if s.getV x = s.getV y then s.pc + 4 else s.pc + 2 } ∧
    exec (.sneReg x y) s = .next { s with pc := if s.getV x ≠ s.getV y then s.pc + 4 else s.pc + 2 }

/-! ### Families 6, 7, 8 (43_load_alu.md) -/

/-- 6xnn, 7xnn, 8xy0: the destination's value (7xnn mod 256, with no flag), every other register, VF included unless it
is the destination, and all else unchanged (R120, R121, R125). -/
def Obligations.LoadsAndAddImmediate : Prop :=
  ∀ (x y : Reg) (nn : Byte) (s : State),
    RegisterEffect (exec (.ldImm x nn) s) s [x] (fun t => t.getV x = nn) ∧
    RegisterEffect (exec (.addImm x nn) s) s [x]
      (fun t => (t.getV x).toNat = ((s.getV x).toNat + nn.toNat) % 256) ∧
    RegisterEffect (exec (.ldReg x y) s) s [x] (fun t => t.getV x = s.getV y)

/-- 8xy1, 8xy2, 8xy3: the bitwise result into Vx; then VF is 0 with `cfg.logic_quirk`, and without it VF is not written
unless it is the destination (R126 to R128). -/
def Obligations.LogicWithItsQuirk : Prop :=
  ∀ (x y : Reg) (s : State) (i : Instr) (r : Byte),
    (i = .orReg x y ∧ r = s.getV x ||| s.getV y) ∨ (i = .andReg x y ∧ r = s.getV x &&& s.getV y) ∨
      (i = .xorReg x y ∧ r = s.getV x ^^^ s.getV y) →
    RegisterEffect (exec i s) s [x, VF] (fun t =>
      (x ≠ VF → t.getV x = r) ∧ (s.cfg.logicQuirk = true → t.getV VF = 0) ∧
      (s.cfg.logicQuirk = false → t.getV VF = if x = VF then r else s.getV VF))

/-- 8xy4: the sum mod 256 into Vx, then VF is 1 iff the unsigned sum exceeds 255, with `x = 0xF` too (R129). -/
def Obligations.AddSetsTheCarry : Prop :=
  ∀ (x y : Reg) (s : State),
    RegisterEffect (exec (.addReg x y) s) s [x, VF] (fun t =>
      (x ≠ VF → (t.getV x).toNat = ((s.getV x).toNat + (s.getV y).toNat) % 256) ∧
      (t.getV VF).toNat = if 255 < (s.getV x).toNat + (s.getV y).toNat then 1 else 0)

/-- 8xy5 and 8xy7: the difference mod 256 into Vx, then VF is 1 iff there is no borrow, with `x = 0xF` too (R130,
R132). -/
def Obligations.SubtractionsSetNoBorrow : Prop :=
  ∀ (x y : Reg) (s : State),
    RegisterEffect (exec (.sub x y) s) s [x, VF] (fun t =>
      (x ≠ VF → (t.getV x).toNat = ((s.getV x).toNat + 256 - (s.getV y).toNat) % 256) ∧
      (t.getV VF).toNat = if (s.getV y).toNat ≤ (s.getV x).toNat then 1 else 0) ∧
    RegisterEffect (exec (.subn x y) s) s [x, VF] (fun t =>
      (x ≠ VF → (t.getV x).toNat = ((s.getV y).toNat + 256 - (s.getV x).toNat) % 256) ∧
      (t.getV VF).toNat = if (s.getV x).toNat ≤ (s.getV y).toNat then 1 else 0)

/-- 8xy6 and 8xyE: the source v is Vy, or Vx with `cfg.shift_quirk`. For `x` other than 0xF: Vx is v shifted by one and
VF the bit shifted out. For `x = 0xF` the shift acts on the flag just written: 0 after 8Fy6, twice bit 7 after 8FyE
(R131, R133; the order for `x = 0xF` is the spec's own decision D17, log entry 14). -/
def Obligations.ShiftsBySourceAndFlag : Prop :=
  ∀ (x y : Reg) (s : State) (v : Byte), v = (if s.cfg.shiftQuirk then s.getV x else s.getV y) →
    RegisterEffect (exec (.shr x y) s) s [x, VF] (fun t =>
      (x ≠ VF → (t.getV x).toNat = v.toNat / 2 ∧ (t.getV VF).toNat = v.toNat % 2) ∧
      (x = VF → t.getV VF = 0)) ∧
    RegisterEffect (exec (.shl x y) s) s [x, VF] (fun t =>
      (x ≠ VF → (t.getV x).toNat = v.toNat * 2 % 256 ∧ (t.getV VF).toNat = v.toNat / 128) ∧
      (x = VF → (t.getV VF).toNat = 2 * (v.toNat / 128)))

/-! ### Families A, B, C (44_index_jump_random.md) -/

/-- Annn: `I` is nnn, nothing else changes (R140). -/
def Obligations.LdILoadsTheAddress : Prop :=
  ∀ (nnn : Addr) (s : State), ∃ t, exec (.ldI nnn) s = .next t ∧ t.I.toNat = nnn.toNat ∧
    t = { s with I := t.I, pc := s.pc + 2 } ∧ SameMemory s t

/-- Bnnn: `pc` is nnn plus V0, or plus the register numbered by the high nibble of nnn with the quirk; the sum is not
reduced; nothing else changes (R141). -/
def Obligations.JpV0AddsTheOffset : Prop :=
  ∀ (nnn : Addr) (r : Reg) (s : State), r.val = (if s.cfg.jumpOffsetQuirk then nnn.toNat / 256 else 0) →
    ∃ t, exec (.jpV0 nnn) s = .next t ∧ t.pc.toNat = nnn.toNat + (s.getV r).toNat ∧ t = { s with pc := t.pc }

/-- Cxnn: Vx is the cycle's `rnd` input AND nn, whatever that input is (R142). -/
def Obligations.RndMasksTheRandomInput : Prop :=
  ∀ (x : Reg) (nn : Byte) (s : State),
    RegisterEffect (exec (.rnd x nn) s) s [x] (fun t => t.getV x = s.env.inp.rnd &&& nn)

/-! ### Family D (45_draw.md) -/

/-- Dxyn with all its row addresses in range (decision D9, log entry 18): every cell of the frame buffer is XORed with
the sprite bit over it, the start coordinates taken modulo 64 and 32 with `cfg.sprite_wrap_quirk` and as they are
without it (unreduced sums are the spec's own decision D18, log entry 15); VF is 1 iff a sprite bit lay over an on
pixel; nothing else changes, `I` and memory included (R150 to R153). -/
def Obligations.DrwXorsTheSprite : Prop :=
  ∀ (x y : Reg) (n : Nibble) (s : State) (x0 y0 : Nat) (bytes : List Byte),
    n.val = 0 ∨ s.I.toNat + (n.val - 1) ≤ 0xFFF →
    x0 = (if s.cfg.spriteWrapQuirk then (s.getV x).toNat % 64 else (s.getV x).toNat) →
    y0 = (if s.cfg.spriteWrapQuirk then (s.getV y).toNat % 32 else (s.getV y).toNat) →
    bytes = (List.range n.val).map (fun r => s.readByte (s.I.toNat + r)) →
    ∃ t, exec (.drw x y n) s = .next t ∧
      (∀ j : Fin 2048, t.fb.cell j = ((s.fb.cell j) ^^ spriteBit bytes x0 y0 (j.val % 64) (j.val / 64))) ∧
      ((∃ j : Fin 2048, spriteBit bytes x0 y0 (j.val % 64) (j.val / 64) = true ∧ s.fb.cell j = true) →
        t.getV VF = 1) ∧
      ((∀ j : Fin 2048, spriteBit bytes x0 y0 (j.val % 64) (j.val / 64) = true → s.fb.cell j = false) →
        t.getV VF = 0) ∧
      RegsKept [VF] s t ∧ t = { s with V := t.V, fb := t.fb, pc := s.pc + 2 } ∧ SameMemory s t

/-- Double draw (R154, its VF clause as 90_conflicts.md C9 and the spec's derivation have it): the same sprite at the
same place twice restores the frame buffer exactly, and VF after the second draw is 1 iff some sprite bit lay over a
pixel that was off before the first. Where a sprite bit lies is as in R150 and R151, the sums `x0 + c` and `y0 + r`
unreduced: the spec's own decision D18, log entry 15, unsafe; the range of the premise is its decision D9, log entry
18. The place is the same when the two coordinate registers hold after the first draw what they held before it: always
where neither is VF, and for VF only where the flag leaves it as it was. -/
def Obligations.DoubleDrawRestoresTheFrameBuffer : Prop :=
  ∀ (x y : Reg) (n : Nibble) (s t : State), n.val = 0 ∨ s.I.toNat + (n.val - 1) ≤ 0xFFF →
    exec (.drw x y n) s = .next t → t.getV x = s.getV x → t.getV y = s.getV y →
    ∃ u, exec (.drw x y n) t = .next u ∧ u.fb = s.fb ∧
      (u.getV VF = 1 ↔ ∃ j : Fin 2048, s.fb.cell j = false ∧
        spriteBit (s.spriteBytes n) (s.startX x) (s.startY y) (j.val % 64) (j.val / 64) = true)

/-! ### Family E and Fx0A (46_keypad_ops.md) -/

/-- Ex9E and ExA1: skip on the current state of the key that the low four bits of Vx name, nothing else changed (R160,
R161). -/
def Obligations.KeySkips : Prop :=
  ∀ (x : Reg) (k : Key) (s : State), k.val = (s.getV x).toNat % 16 →
    exec (.skp x) s = .next { s with pc := if s.cur[k] = true then s.pc + 4 else s.pc + 2 } ∧
    exec (.sknp x) s = .next { s with pc := if s.cur[k] = false then s.pc + 4 else s.pc + 2 }

/-- Fx0A: of the keys that are up and whose release is less than 30 000 µs old at the start of the cycle the lowest
goes into Vx and the tracker is left alone; with none it waits, changing nothing (R162, with the release window of
60_exceptions.md R227, the spec's own decision D20, log entry 20). -/
def Obligations.WaitKeyTakesTheLowestRelease : Prop :=
  ∀ (x : Reg) (s : State) (released : Key → Prop),
    (∀ k, released k ↔ s.shadow[k] = true ∧ s.cur[k] = false ∧ s.env.inp.t < s.relTs[k] + 30000) →
    (∀ k, released k → (∀ j, j < k → ¬ released j) →
      RegisterEffect (exec (.ldVxK x) s) s [x] (fun t => (t.getV x).toNat = k.val)) ∧
    ((∀ k, ¬ released k) → exec (.ldVxK x) s = .next s)

/-- The release window (60_exceptions.md R226, R227; the spec's own decisions D20, D24, log entry 20): after `KeyUp(k,
t0)`, a cycle that starts at t not before t0 finds the release live exactly until t0 + 30 000 µs, and no `KeyDown(j)`,
of that key or of another, changes that. -/
def Obligations.ReleaseIsLiveForThirtyMilliseconds : Prop :=
  ∀ (s : State) (k j : Key) (t0 : Nat) (inp : CycleInput) (rest : List Transaction), t0 ≤ inp.t →
    (((s.releaseKey k t0).latch inp rest).live k = true ↔ inp.t < t0 + 30000) ∧
    ((((s.releaseKey k t0).pressKey j).latch inp rest).live k = true ↔ inp.t < t0 + 30000)

/-! ### Family F (47_timer_index_memory_ops.md) -/

/-- Fx07, Fx15, Fx18: the delay timer into Vx, Vx into the delay timer, Vx into the sound timer, at once visible as
`buzzer_active`; nothing else changes (R170 to R172). -/
def Obligations.TimerLoads : Prop :=
  ∀ (x : Reg) (s : State),
    RegisterEffect (exec (.ldVxDT x) s) s [x] (fun t => t.getV x = s.DT) ∧
    exec (.ldDTVx x) s = .next { s with DT := s.getV x, pc := s.pc + 2 } ∧
    ∃ t, exec (.ldSTVx x) s = .next t ∧ t = { s with ST := s.getV x, pc := s.pc + 2 } ∧
      (t.buzzerActive = true ↔ 0 < (s.getV x).toNat)

/-- Fx1E: `I` plus Vx mod 65536; VF and all else unchanged (R173). -/
def Obligations.AddIWrapsAtSixteenBits : Prop :=
  ∀ (x : Reg) (s : State), ∃ t, exec (.addI x) s = .next t ∧
    t.I.toNat = (s.I.toNat + (s.getV x).toNat) % 65536 ∧ t = { s with I := t.I, pc := s.pc + 2 } ∧ SameMemory s t

/-- Fx29: `I` is the font table's entry for the low four bits of Vx, and in a state that keeps the invariant that is
`cfg.font_base + 5 * digit`; nothing else changes, and memory is not read for it (R175; the layout of the table is the
spec's own decision D15, log entry 20). -/
def Obligations.LdFPointsAtTheGlyph : Prop :=
  ∀ (x : Reg) (d : Nibble) (s : State), d.val = (s.getV x).toNat % 16 →
    ∃ t, exec (.ldF x) s = .next t ∧ t.I = s.fontAddr[d] ∧ t = { s with I := t.I, pc := s.pc + 2 } ∧
      SameMemory s t ∧ (s.Inv → t.I.toNat = s.cfg.fontBase + 5 * d.val)

/-- Fx33 with its three addresses in range (the spec's own decision D9, log entry 18): hundreds, tens and ones of Vx
at `I`, `I + 1`, `I + 2`; every other byte and all else unchanged (R176). -/
def Obligations.BcdStoresThreeDigits : Prop :=
  ∀ (x : Reg) (s : State), s.I.toNat + 2 ≤ 0xFFF →
    ∃ t, exec (.ldB x) s = .next t ∧
      (t.readByte s.I.toNat).toNat = (s.getV x).toNat / 100 ∧
      (t.readByte (s.I.toNat + 1)).toNat = (s.getV x).toNat / 10 % 10 ∧
      (t.readByte (s.I.toNat + 2)).toNat = (s.getV x).toNat % 10 ∧
      (∀ a, a < s.I.toNat ∨ s.I.toNat + 2 < a → t.readByte a = s.readByte a) ∧
      t = { s with mem := t.mem, pc := s.pc + 2 }

/-- Fx55 with its addresses in range (the spec's own decision D9, log entry 18): V0 to Vx at `I` to `I + x`; every
other byte unchanged; `I` is `I + x + 1` with `cfg.memory_quirk` and unchanged without it; the registers and all else
unchanged (R177). -/
def Obligations.StoreRegistersToMemory : Prop :=
  ∀ (x : Reg) (s : State), s.I.toNat + x.val ≤ 0xFFF →
    ∃ t, exec (.stRegs x) s = .next t ∧
      (∀ r : Reg, r ≤ x → t.readByte (s.I.toNat + r.val) = s.getV r) ∧
      (∀ a, a < s.I.toNat ∨ s.I.toNat + x.val < a → t.readByte a = s.readByte a) ∧
      t.I.toNat = (if s.cfg.memoryQuirk then s.I.toNat + x.val + 1 else s.I.toNat) ∧
      t = { s with mem := t.mem, I := t.I, pc := s.pc + 2 }

/-- Fx65 with its addresses in range (the spec's own decision D9, log entry 18): V0 to Vx from `I` to `I + x`; the
registers above Vx, memory and all else unchanged; `I` as for Fx55 (R178). -/
def Obligations.LoadRegistersFromMemory : Prop :=
  ∀ (x : Reg) (s : State), s.I.toNat + x.val ≤ 0xFFF →
    ∃ t, exec (.ldRegs x) s = .next t ∧
      (∀ r : Reg, r ≤ x → t.getV r = s.readByte (s.I.toNat + r.val)) ∧
      (∀ r : Reg, x < r → t.getV r = s.getV r) ∧
      t.I.toNat = (if s.cfg.memoryQuirk then s.I.toNat + x.val + 1 else s.I.toNat) ∧
      t = { s with V := t.V, I := t.I, pc := s.pc + 2 } ∧ SameMemory s t

/-- Dxyn, Fx33, Fx55 and Fx65 with an address above 0xFFF halt with the smallest such address and change nothing
(20_memory.md R46, R47; the spec's own decision D9, log entry 18): the sum is not reduced, and clipped rows count. -/
def Obligations.RangeFaultsChangeNothing : Prop :=
  ∀ (i : Instr) (n : Nat) (s : State),
    (∃ x y m, i = .drw x y m ∧ n = m.val) ∨ (∃ x, i = .ldB x ∧ n = 3) ∨
      (∃ x, i = .stRegs x ∧ n = x.val + 1) ∨ (∃ x, i = .ldRegs x ∧ n = x.val + 1) →
    ∀ a, (∃ r, r < n ∧ a = s.I.toNat + r ∧ 0xFFF < a) → (∀ r, r < n → s.I.toNat + r < a → s.I.toNat + r ≤ 0xFFF) →
      exec i s = .next (haltedWith .memoryOutOfBounds a s)

/-- A store is seen by the next fetch (20_memory.md R53, which the spec marks as derived; the range is its decision D9,
log entry 18): after an Fx55 or an Fx33 in range, in every state u with the
memory and `pc` that it left (the next cycle's is one: accounting and new inputs change neither), a stored byte at
`pc` is the high byte of the fetched word and a stored byte at `pc + 1` its low byte. -/
def Obligations.StoreIsSeenByTheNextFetch : Prop :=
  ∀ (x : Reg) (s t u : State), u.mem = t.mem → u.pc = t.pc →
    (s.I.toNat + x.val ≤ 0xFFF → exec (.stRegs x) s = .next t → ∀ r : Reg, r ≤ x →
      (u.pc.toNat = s.I.toNat + r.val → u.fetchWord.toNat / 256 = (s.getV r).toNat) ∧
      (u.pc.toNat + 1 = s.I.toNat + r.val → u.fetchWord.toNat % 256 = (s.getV r).toNat)) ∧
    (s.I.toNat + 2 ≤ 0xFFF → exec (.ldB x) s = .next t → ∀ (i digit : Nat),
      (i = 0 ∧ digit = (s.getV x).toNat / 100) ∨ (i = 1 ∧ digit = (s.getV x).toNat / 10 % 10) ∨
        (i = 2 ∧ digit = (s.getV x).toNat % 10) →
      (u.pc.toNat = s.I.toNat + i → u.fetchWord.toNat / 256 = digit) ∧
      (u.pc.toNat + 1 = s.I.toNat + i → u.fetchWord.toNat % 256 = digit))

/-! ### Transactions (60_exceptions.md, 70_reset_and_hazards.md) -/

/-- `KeyDown(k)` sets `cur[k]` and nothing else, in Running and in Halted (R225; leaving the shadow flag alone is the
spec's own decision D24, and that it acts in Halted too its decision D11, log entry 20). -/
def Obligations.KeyDownSetsCurrent : Prop :=
  ∀ (s : State) (k : Key) (rest : List Transaction), s.env.pending = .keyDown k :: rest →
    ∃ t, step s = .next t ∧ t.cur[k] = true ∧ (∀ j, j ≠ k → t.cur[j] = s.cur[j]) ∧
      t = { s with cur := t.cur, env := tailEnv s rest }

/-- `KeyUp(k, u)` clears `cur[k]`, sets `shadow[k]` and records the time, for a key that was not down too, and changes
nothing else, in Running and in Halted (R226; the spec's own decisions D24, D11, log entry 20). The premise is duty 3
of R233. -/
def Obligations.KeyUpOpensTheWindow : Prop :=
  ∀ (s : State) (k : Key) (u : Nat) (rest : List Transaction), s.env.pending = .keyUp k u :: rest →
    s.env.lastEvent ≤ u →
    ∃ t, step s = .next t ∧ t.cur[k] = false ∧ t.shadow[k] = true ∧ t.relTs[k] = u ∧
      (∀ j, j ≠ k → t.cur[j] = s.cur[j] ∧ t.shadow[j] = s.shadow[j] ∧ t.relTs[j] = s.relTs[j]) ∧
      t = { s with
        cur := t.cur, shadow := t.shadow, relTs := t.relTs, env := { tailEnv s rest with lastEvent := u } }

/-- `AckFrame()` clears `frame_ready` and changes nothing else (R231). -/
def Obligations.AckFrameClearsTheFlag : Prop :=
  ∀ (s : State) (rest : List Transaction), s.env.pending = .ackFrame :: rest →
    step s = .next { s with frameReady := false, env := tailEnv s rest }

/-- `Reset()` from Running or Halted: every piece of state but memory, the font table and the configuration has its
initial value (70_reset_and_hazards.md R245; clearing `I`, `acc`, `frame_ready` and Halted are the spec's own decisions
D19, D11, log entry 20). -/
def Obligations.ResetKeepsMemoryOnly : Prop :=
  ∀ (s : State) (rest : List Transaction), s.env.pending = .reset :: rest →
    ∃ t, step s = .next t ∧
      (∀ r, t.getV r = 0) ∧ t.I = 0 ∧ t.pc = 0x200 ∧ t.stack = [] ∧ t.DT = 0 ∧ t.ST = 0 ∧
      (∀ j, t.fb.cell j = false) ∧
      (∀ k : Key, t.cur[k] = false ∧ t.shadow[k] = false ∧ t.relTs[k] = 0) ∧
      t.acc = 0 ∧ t.frameReady = false ∧ t.status = .running ∧ t.buzzerActive = false ∧
      t.mem = s.mem ∧ t.fontAddr = s.fontAddr ∧ t.cfg = s.cfg ∧ t.env = tailEnv s rest

/-- `Construct(program, cfg)`: with arguments in the bounds of 70_reset_and_hazards.md R240 the glyphs, the program, the
font table and the entry point are as R241, R243 and R244 say and every other cell and piece of state is 0; with others
it is refused (the bounds, the zero fill, the layout and the entry point are the spec's own decisions D12 to D15; log
entry 6). -/
def Obligations.ConstructBuildsTheBlock : Prop :=
  ∀ (s : State) (program : List Byte) (c : Config) (rest : List Transaction),
    s.env.pending = .construct program c :: rest →
    (program.length ≤ 3584 ∧ c.fontBase ≤ 0x1B0 ∧ 0 < c.frameBudget ∧ 1 ≤ c.stackDepth ∧
        (∀ k : Fin 35, c.cost[k] ≤ c.frameBudget) →
      ∃ t, step s = .next t ∧
        (∀ j : Fin 80, t.readByte (c.fontBase + j.val) = c.fontGlyphs[j]) ∧
        (∀ j, j < program.length → t.readByte (0x200 + j) = program.getD j 0) ∧
        (∀ a, (a < c.fontBase ∨ c.fontBase + 79 < a) → (a < 0x200 ∨ 0x200 + program.length ≤ a) →
          t.readByte a = 0) ∧
        (∀ d : Nibble, (t.fontAddr[d]).toNat = c.fontBase + 5 * d.val) ∧
        (∀ r, t.getV r = 0) ∧ t.I = 0 ∧ t.pc = 0x200 ∧ t.stack = [] ∧ t.DT = 0 ∧ t.ST = 0 ∧
        (∀ j, t.fb.cell j = false) ∧
        (∀ k : Key, t.cur[k] = false ∧ t.shadow[k] = false ∧ t.relTs[k] = 0) ∧
        t.acc = 0 ∧ t.frameReady = false ∧ t.status = .running ∧ t.cfg = c ∧ t.env = tailEnv s rest) ∧
    (¬ (program.length ≤ 3584 ∧ c.fontBase ≤ 0x1B0 ∧ 0 < c.frameBudget ∧ 1 ≤ c.stackDepth ∧
        ∀ k : Fin 35, c.cost[k] ≤ c.frameBudget) → step s = .refused .illegalConstruct)

/-- `State.reset` is the block after `Construct` with no program and CFG0 (log entries 1, 9 and 10), so its memory is
the glyphs and 0 elsewhere. -/
def Obligations.ResetStateIsConstructed : Prop :=
  State.reset = constructed [] Config.cfg0 Env.reset
end

