-- ==== Sys2Proof/Laws/Decode.lean ====
section
/-! SUPPORT. The fields of an opcode and the words of the four operand layouts as numbers. -/

namespace Sys2Proof

/-! ### Fields as numbers -/

theorem opTop_eq (op : Word) : opTop op = op.toNat / 4096 := by
  have := op.isLt
  simp [opTop, Nat.shiftRight_eq_div_pow]
  omega

theorem opX_val (op : Word) : (opX op).val = op.toNat / 256 % 16 := by
  simp [opX, Nat.shiftRight_eq_div_pow]

theorem opY_val (op : Word) : (opY op).val = op.toNat / 16 % 16 := by
  simp [opY, Nat.shiftRight_eq_div_pow]

theorem opN_val (op : Word) : (opN op).val = op.toNat % 16 := by
  simp [opN]

theorem opNN_toNat (op : Word) : (opNN op).toNat = op.toNat % 256 := by
  simp [opNN]

theorem opNNN_toNat (op : Word) : (opNNN op).toNat = op.toNat % 4096 := by
  simp [opNNN]

theorem opTop_lt (op : Word) : opTop op < 16 := by
  have := op.isLt
  rw [opTop_eq]; omega

/-! ### Layouts as numbers -/

theorem append_toNat {m n : Nat} (a : BitVec m) (b : BitVec n) :
    (a ++ b).toNat = a.toNat * 2 ^ n + b.toNat := by
  rw [BitVec.toNat_append, Nat.shiftLeft_eq, Nat.mul_comm, ← Nat.two_pow_add_eq_or_of_lt b.isLt]

theorem nib_toNat (n : Nibble) : (nib n).toNat = n.val := rfl

theorem encAddr_toNat (t : BitVec 4) (nnn : Addr) : (encAddr t nnn).toNat = t.toNat * 4096 + nnn.toNat :=
  append_toNat t nnn

theorem encRegImm_toNat (t : BitVec 4) (x : Reg) (nn : Byte) :
    (encRegImm t x nn).toNat = t.toNat * 4096 + x.val * 256 + nn.toNat := by
  have h := append_toNat (t ++ nib x) nn
  have h1 := append_toNat t (nib x)
  have hx := nib_toNat x
  have e : (encRegImm t x nn).toNat = (t ++ nib x ++ nn).toNat := rfl
  omega

theorem encRegRegN_toNat (t : BitVec 4) (x y : Reg) (n : BitVec 4) :
    (encRegRegN t x y n).toNat = t.toNat * 4096 + x.val * 256 + y.val * 16 + n.toNat := by
  have h := append_toNat (t ++ nib x ++ nib y) n
  have h1 := append_toNat (t ++ nib x) (nib y)
  have h2 := append_toNat t (nib x)
  have hx := nib_toNat x
  have hy := nib_toNat y
  have e : (encRegRegN t x y n).toNat = (t ++ nib x ++ nib y ++ n).toNat := rfl
  omega

theorem bytesWord_toNat (hi lo : Byte) : (bytesWord hi lo).toNat = hi.toNat * 256 + lo.toNat :=
  append_toNat hi lo

/-! ### Fields of the layouts -/

section Fields

variable (t : BitVec 4) (nnn : Addr) (x y : Reg) (nn : Byte) (n : BitVec 4)

@[simp] theorem opTop_encAddr : opTop (encAddr t nnn) = t.toNat := by
  have := nnn.isLt
  rw [opTop_eq, encAddr_toNat]; omega

@[simp] theorem opNNN_encAddr : opNNN (encAddr t nnn) = nnn := by
  have := nnn.isLt
  apply BitVec.eq_of_toNat_eq
  rw [opNNN_toNat, encAddr_toNat]; omega

@[simp] theorem opTop_encRegImm : opTop (encRegImm t x nn) = t.toNat := by
  have := nn.isLt
  rw [opTop_eq, encRegImm_toNat]; omega

@[simp] theorem opX_encRegImm : opX (encRegImm t x nn) = x := by
  have := nn.isLt
  apply Fin.ext
  rw [opX_val, encRegImm_toNat]; omega

@[simp] theorem opNN_encRegImm : opNN (encRegImm t x nn) = nn := by
  have := nn.isLt
  apply BitVec.eq_of_toNat_eq
  rw [opNN_toNat, encRegImm_toNat]; omega

@[simp] theorem opTop_encRegRegN : opTop (encRegRegN t x y n) = t.toNat := by
  have := n.isLt
  rw [opTop_eq, encRegRegN_toNat]; omega

@[simp] theorem opX_encRegRegN : opX (encRegRegN t x y n) = x := by
  have := n.isLt
  apply Fin.ext
  rw [opX_val, encRegRegN_toNat]; omega

@[simp] theorem opY_encRegRegN : opY (encRegRegN t x y n) = y := by
  have := n.isLt
  apply Fin.ext
  rw [opY_val, encRegRegN_toNat]; omega

@[simp] theorem opN_encRegRegN_val : (opN (encRegRegN t x y n)).val = n.toNat := by
  have := n.isLt
  rw [opN_val, encRegRegN_toNat]; omega

end Fields

/-! ### Bytes -/

/-- A word laid out in memory order and put together again. -/
theorem bytesWord_wordBytes (op : Word) : bytesWord (op.extractLsb' 8 8) (op.extractLsb' 0 8) = op := by
  have := op.isLt
  apply BitVec.eq_of_toNat_eq
  rw [bytesWord_toNat]
  simp [Nat.shiftRight_eq_div_pow]
  omega

/-- Decoding the two bytes of a word, whatever stands after them. -/
theorem decode_wordBytes (op : Word) (rest : List Byte) :
    decode (wordBytes op ++ rest) =
      match decodeOp op with
      | some i => .ok (i, rest)
      | none => .error (.unknownOpcode op) := by
  show (match decodeOp (bytesWord _ _) with
    | some i => Except.ok (i, rest) | none => Except.error (DecodeError.unknownOpcode (bytesWord _ _))) = _
  rw [bytesWord_wordBytes]

end Sys2Proof
end

