-- ==== Sys2Proof/Laws/Operands.lean ====
section
/-! SUPPORT. What the operand forms and the flag computations give. -/

namespace Sys2Proof.Machine

/-! ### The range check -/

theorem outOfRange_zero (base : Nat) : outOfRange base 0 = none := rfl

theorem outOfRange_eq_none {base n : Nat} : outOfRange base n = none ↔ n = 0 ∨ base + n ≤ 0x1000 := by
  simp only [outOfRange, List.find?_eq_none, List.mem_map, List.mem_range]
  constructor
  · intro h
    by_contra hc
    have := h (base + (n - 1)) ⟨n - 1, by omega, rfl⟩
    simp at this
    omega
  · rintro h _ ⟨i, hi, rfl⟩
    simp
    omega

/-- The smallest address out of range is `base` itself, or 0x1000 when the range begins inside memory. -/
theorem outOfRange_eq_some {base n : Nat} (hn : 0 < n) (h : 0x1000 < base + n) :
    outOfRange base n = some (max base 0x1000) := by
  unfold outOfRange
  rw [List.find?_map, Option.map_eq_some_iff]
  refine ⟨max base 0x1000 - base, ?_, by omega⟩
  rw [List.find?_range_eq_some]
  refine ⟨?_, by rw [List.mem_range]; omega, fun j hj => ?_⟩
  · simp
  · simp
    omega

theorem checkRange_in {n : Nat} {s e : State} (h : n = 0 ∨ s.I.toNat + n ≤ 0x1000) :
    checkRange n s e = .next e := by
  rw [checkRange, outOfRange_eq_none.mpr h]

theorem checkRange_out {n : Nat} {s e : State} (hn : 0 < n) (h : 0x1000 < s.I.toNat + n) :
    checkRange n s e = raise .memoryOutOfBounds (max s.I.toNat 0x1000) s := by
  rw [checkRange, outOfRange_eq_some hn h]

/-- Everything the range check can answer. -/
theorem checkRange_cases {n : Nat} {s e t : State} (h : checkRange n s e = .next t) :
    (t = e ∧ (n = 0 ∨ s.I.toNat + n ≤ 0x1000)) ∨
    (0 < n ∧ 0x1000 < s.I.toNat + n ∧
      t = { s with status := .halted ⟨.memoryOutOfBounds, max s.I.toNat 0x1000⟩ }) := by
  by_cases hr : n = 0 ∨ s.I.toNat + n ≤ 0x1000
  · rw [checkRange_in hr] at h
    injection h with h
    exact .inl ⟨h.symm, hr⟩
  · rw [checkRange_out (by omega) (by omega), raise] at h
    injection h with h
    exact .inr ⟨by omega, by omega, h.symm⟩

/-! ### Keys -/

theorem firstKey_eq_none {s : State} : s.firstKey = none ↔ ∀ k, s.qualifies k = false := by
  simp [State.firstKey, List.find?_eq_none]

/-- The key that Fx0A finds is the lowest that qualifies. -/
theorem firstKey_eq_some {s : State} {k : Key} :
    s.firstKey = some k ↔ s.qualifies k = true ∧ ∀ j, j < k → s.qualifies j = false := by
  unfold State.firstKey
  rw [List.find?_eq_some_iff_getElem]
  constructor
  · rintro ⟨hk, i, hi, rfl, hj⟩
    refine ⟨hk, fun j hjk => ?_⟩
    have hji : j.val < i := by
      rw [List.getElem_finRange] at hjk
      exact hjk
    have := hj j.val hji
    simpa using this
  · rintro ⟨hk, hj⟩
    refine ⟨hk, k.val, by simp, by simp, fun j hjk => ?_⟩
    have hjk' : j < k.val := hjk
    simpa using hj ⟨j, by omega⟩ hjk'

/-! ### Flags and results -/

theorem flagByte_toNat (b : Bool) : (flagByte b).toNat = if b then 1 else 0 := by cases b <;> rfl

theorem addBytes_toNat (a b : Byte) : (addBytes a b).toNat = (a.toNat + b.toNat) % 256 := by
  simp [addBytes]

theorem subBytes_toNat (a b : Byte) : (subBytes a b).toNat = (a.toNat + 256 - b.toNat) % 256 := by
  simp [subBytes]

theorem shrByte_toNat (v : Byte) : (shrByte v).toNat = v.toNat / 2 := by
  simp [shrByte, Nat.shiftRight_eq_div_pow]

theorem shlByte_toNat (v : Byte) : (shlByte v).toNat = v.toNat * 2 % 256 := by
  simp [shlByte]

theorem tick_toNat (b : Byte) : (tick b).toNat = b.toNat - 1 := by
  unfold tick
  split
  · subst_vars; rfl
  · rename_i h
    have : b.toNat ≠ 0 := fun e => h (BitVec.eq_of_toNat_eq (by simpa using e))
    have := b.isLt
    rw [BitVec.toNat_sub]
    simp
    omega

theorem addrOf_toNat (nnn : Addr) : (addrOf nnn).toNat = nnn.toNat := by
  have := nnn.isLt
  simp [addrOf]
  omega

end Sys2Proof.Machine
end

