-- ==== Sys2Proof/Laws/State.lean ====
section
/-! SUPPORT. One lemma per field per update of the state, and the reads of a register after an update. -/

namespace Sys2Proof.Machine

/-! ### State.setV -/

@[simp] theorem State.setV_V (x : Reg) (b : Byte) (s : State) : (s.setV x b).V = s.V.set x b := rfl
@[simp] theorem State.setV_I (x : Reg) (b : Byte) (s : State) : (s.setV x b).I = s.I := rfl
@[simp] theorem State.setV_pc (x : Reg) (b : Byte) (s : State) : (s.setV x b).pc = s.pc := rfl
@[simp] theorem State.setV_stack (x : Reg) (b : Byte) (s : State) : (s.setV x b).stack = s.stack := rfl
@[simp] theorem State.setV_DT (x : Reg) (b : Byte) (s : State) : (s.setV x b).DT = s.DT := rfl
@[simp] theorem State.setV_ST (x : Reg) (b : Byte) (s : State) : (s.setV x b).ST = s.ST := rfl
@[simp] theorem State.setV_mem (x : Reg) (b : Byte) (s : State) : (s.setV x b).mem = s.mem := rfl
@[simp] theorem State.setV_fb (x : Reg) (b : Byte) (s : State) : (s.setV x b).fb = s.fb := rfl
@[simp] theorem State.setV_cur (x : Reg) (b : Byte) (s : State) : (s.setV x b).cur = s.cur := rfl
@[simp] theorem State.setV_shadow (x : Reg) (b : Byte) (s : State) : (s.setV x b).shadow = s.shadow := rfl
@[simp] theorem State.setV_relTs (x : Reg) (b : Byte) (s : State) : (s.setV x b).relTs = s.relTs := rfl
@[simp] theorem State.setV_fontAddr (x : Reg) (b : Byte) (s : State) : (s.setV x b).fontAddr = s.fontAddr := rfl
@[simp] theorem State.setV_acc (x : Reg) (b : Byte) (s : State) : (s.setV x b).acc = s.acc := rfl
@[simp] theorem State.setV_frameReady (x : Reg) (b : Byte) (s : State) : (s.setV x b).frameReady = s.frameReady := rfl
@[simp] theorem State.setV_status (x : Reg) (b : Byte) (s : State) : (s.setV x b).status = s.status := rfl
@[simp] theorem State.setV_cfg (x : Reg) (b : Byte) (s : State) : (s.setV x b).cfg = s.cfg := rfl
@[simp] theorem State.setV_env (x : Reg) (b : Byte) (s : State) : (s.setV x b).env = s.env := rfl

/-! ### State.setVIf -/

@[simp] theorem State.setVIf_V (c : Bool) (x : Reg) (b : Byte) (s : State) : (s.setVIf c x b).V = if c then s.V.set x b else s.V := rfl
@[simp] theorem State.setVIf_I (c : Bool) (x : Reg) (b : Byte) (s : State) : (s.setVIf c x b).I = s.I := rfl
@[simp] theorem State.setVIf_pc (c : Bool) (x : Reg) (b : Byte) (s : State) : (s.setVIf c x b).pc = s.pc := rfl
@[simp] theorem State.setVIf_stack (c : Bool) (x : Reg) (b : Byte) (s : State) : (s.setVIf c x b).stack = s.stack := rfl
@[simp] theorem State.setVIf_DT (c : Bool) (x : Reg) (b : Byte) (s : State) : (s.setVIf c x b).DT = s.DT := rfl
@[simp] theorem State.setVIf_ST (c : Bool) (x : Reg) (b : Byte) (s : State) : (s.setVIf c x b).ST = s.ST := rfl
@[simp] theorem State.setVIf_mem (c : Bool) (x : Reg) (b : Byte) (s : State) : (s.setVIf c x b).mem = s.mem := rfl
@[simp] theorem State.setVIf_fb (c : Bool) (x : Reg) (b : Byte) (s : State) : (s.setVIf c x b).fb = s.fb := rfl
@[simp] theorem State.setVIf_cur (c : Bool) (x : Reg) (b : Byte) (s : State) : (s.setVIf c x b).cur = s.cur := rfl
@[simp] theorem State.setVIf_shadow (c : Bool) (x : Reg) (b : Byte) (s : State) : (s.setVIf c x b).shadow = s.shadow := rfl
@[simp] theorem State.setVIf_relTs (c : Bool) (x : Reg) (b : Byte) (s : State) : (s.setVIf c x b).relTs = s.relTs := rfl
@[simp] theorem State.setVIf_fontAddr (c : Bool) (x : Reg) (b : Byte) (s : State) : (s.setVIf c x b).fontAddr = s.fontAddr := rfl
@[simp] theorem State.setVIf_acc (c : Bool) (x : Reg) (b : Byte) (s : State) : (s.setVIf c x b).acc = s.acc := rfl
@[simp] theorem State.setVIf_frameReady (c : Bool) (x : Reg) (b : Byte) (s : State) : (s.setVIf c x b).frameReady = s.frameReady := rfl
@[simp] theorem State.setVIf_status (c : Bool) (x : Reg) (b : Byte) (s : State) : (s.setVIf c x b).status = s.status := rfl
@[simp] theorem State.setVIf_cfg (c : Bool) (x : Reg) (b : Byte) (s : State) : (s.setVIf c x b).cfg = s.cfg := rfl
@[simp] theorem State.setVIf_env (c : Bool) (x : Reg) (b : Byte) (s : State) : (s.setVIf c x b).env = s.env := rfl

/-! ### State.setI -/

@[simp] theorem State.setI_V (w : Word) (s : State) : (s.setI w).V = s.V := rfl
@[simp] theorem State.setI_I (w : Word) (s : State) : (s.setI w).I = w := rfl
@[simp] theorem State.setI_pc (w : Word) (s : State) : (s.setI w).pc = s.pc := rfl
@[simp] theorem State.setI_stack (w : Word) (s : State) : (s.setI w).stack = s.stack := rfl
@[simp] theorem State.setI_DT (w : Word) (s : State) : (s.setI w).DT = s.DT := rfl
@[simp] theorem State.setI_ST (w : Word) (s : State) : (s.setI w).ST = s.ST := rfl
@[simp] theorem State.setI_mem (w : Word) (s : State) : (s.setI w).mem = s.mem := rfl
@[simp] theorem State.setI_fb (w : Word) (s : State) : (s.setI w).fb = s.fb := rfl
@[simp] theorem State.setI_cur (w : Word) (s : State) : (s.setI w).cur = s.cur := rfl
@[simp] theorem State.setI_shadow (w : Word) (s : State) : (s.setI w).shadow = s.shadow := rfl
@[simp] theorem State.setI_relTs (w : Word) (s : State) : (s.setI w).relTs = s.relTs := rfl
@[simp] theorem State.setI_fontAddr (w : Word) (s : State) : (s.setI w).fontAddr = s.fontAddr := rfl
@[simp] theorem State.setI_acc (w : Word) (s : State) : (s.setI w).acc = s.acc := rfl
@[simp] theorem State.setI_frameReady (w : Word) (s : State) : (s.setI w).frameReady = s.frameReady := rfl
@[simp] theorem State.setI_status (w : Word) (s : State) : (s.setI w).status = s.status := rfl
@[simp] theorem State.setI_cfg (w : Word) (s : State) : (s.setI w).cfg = s.cfg := rfl
@[simp] theorem State.setI_env (w : Word) (s : State) : (s.setI w).env = s.env := rfl

/-! ### State.setDT -/

@[simp] theorem State.setDT_V (b : Byte) (s : State) : (s.setDT b).V = s.V := rfl
@[simp] theorem State.setDT_I (b : Byte) (s : State) : (s.setDT b).I = s.I := rfl
@[simp] theorem State.setDT_pc (b : Byte) (s : State) : (s.setDT b).pc = s.pc := rfl
@[simp] theorem State.setDT_stack (b : Byte) (s : State) : (s.setDT b).stack = s.stack := rfl
@[simp] theorem State.setDT_DT (b : Byte) (s : State) : (s.setDT b).DT = b := rfl
@[simp] theorem State.setDT_ST (b : Byte) (s : State) : (s.setDT b).ST = s.ST := rfl
@[simp] theorem State.setDT_mem (b : Byte) (s : State) : (s.setDT b).mem = s.mem := rfl
@[simp] theorem State.setDT_fb (b : Byte) (s : State) : (s.setDT b).fb = s.fb := rfl
@[simp] theorem State.setDT_cur (b : Byte) (s : State) : (s.setDT b).cur = s.cur := rfl
@[simp] theorem State.setDT_shadow (b : Byte) (s : State) : (s.setDT b).shadow = s.shadow := rfl
@[simp] theorem State.setDT_relTs (b : Byte) (s : State) : (s.setDT b).relTs = s.relTs := rfl
@[simp] theorem State.setDT_fontAddr (b : Byte) (s : State) : (s.setDT b).fontAddr = s.fontAddr := rfl
@[simp] theorem State.setDT_acc (b : Byte) (s : State) : (s.setDT b).acc = s.acc := rfl
@[simp] theorem State.setDT_frameReady (b : Byte) (s : State) : (s.setDT b).frameReady = s.frameReady := rfl
@[simp] theorem State.setDT_status (b : Byte) (s : State) : (s.setDT b).status = s.status := rfl
@[simp] theorem State.setDT_cfg (b : Byte) (s : State) : (s.setDT b).cfg = s.cfg := rfl
@[simp] theorem State.setDT_env (b : Byte) (s : State) : (s.setDT b).env = s.env := rfl

/-! ### State.setST -/

@[simp] theorem State.setST_V (b : Byte) (s : State) : (s.setST b).V = s.V := rfl
@[simp] theorem State.setST_I (b : Byte) (s : State) : (s.setST b).I = s.I := rfl
@[simp] theorem State.setST_pc (b : Byte) (s : State) : (s.setST b).pc = s.pc := rfl
@[simp] theorem State.setST_stack (b : Byte) (s : State) : (s.setST b).stack = s.stack := rfl
@[simp] theorem State.setST_DT (b : Byte) (s : State) : (s.setST b).DT = s.DT := rfl
@[simp] theorem State.setST_ST (b : Byte) (s : State) : (s.setST b).ST = b := rfl
@[simp] theorem State.setST_mem (b : Byte) (s : State) : (s.setST b).mem = s.mem := rfl
@[simp] theorem State.setST_fb (b : Byte) (s : State) : (s.setST b).fb = s.fb := rfl
@[simp] theorem State.setST_cur (b : Byte) (s : State) : (s.setST b).cur = s.cur := rfl
@[simp] theorem State.setST_shadow (b : Byte) (s : State) : (s.setST b).shadow = s.shadow := rfl
@[simp] theorem State.setST_relTs (b : Byte) (s : State) : (s.setST b).relTs = s.relTs := rfl
@[simp] theorem State.setST_fontAddr (b : Byte) (s : State) : (s.setST b).fontAddr = s.fontAddr := rfl
@[simp] theorem State.setST_acc (b : Byte) (s : State) : (s.setST b).acc = s.acc := rfl
@[simp] theorem State.setST_frameReady (b : Byte) (s : State) : (s.setST b).frameReady = s.frameReady := rfl
@[simp] theorem State.setST_status (b : Byte) (s : State) : (s.setST b).status = s.status := rfl
@[simp] theorem State.setST_cfg (b : Byte) (s : State) : (s.setST b).cfg = s.cfg := rfl
@[simp] theorem State.setST_env (b : Byte) (s : State) : (s.setST b).env = s.env := rfl

/-! ### State.jump -/

@[simp] theorem State.jump_V (w : Word) (s : State) : (s.jump w).V = s.V := rfl
@[simp] theorem State.jump_I (w : Word) (s : State) : (s.jump w).I = s.I := rfl
@[simp] theorem State.jump_pc (w : Word) (s : State) : (s.jump w).pc = w := rfl
@[simp] theorem State.jump_stack (w : Word) (s : State) : (s.jump w).stack = s.stack := rfl
@[simp] theorem State.jump_DT (w : Word) (s : State) : (s.jump w).DT = s.DT := rfl
@[simp] theorem State.jump_ST (w : Word) (s : State) : (s.jump w).ST = s.ST := rfl
@[simp] theorem State.jump_mem (w : Word) (s : State) : (s.jump w).mem = s.mem := rfl
@[simp] theorem State.jump_fb (w : Word) (s : State) : (s.jump w).fb = s.fb := rfl
@[simp] theorem State.jump_cur (w : Word) (s : State) : (s.jump w).cur = s.cur := rfl
@[simp] theorem State.jump_shadow (w : Word) (s : State) : (s.jump w).shadow = s.shadow := rfl
@[simp] theorem State.jump_relTs (w : Word) (s : State) : (s.jump w).relTs = s.relTs := rfl
@[simp] theorem State.jump_fontAddr (w : Word) (s : State) : (s.jump w).fontAddr = s.fontAddr := rfl
@[simp] theorem State.jump_acc (w : Word) (s : State) : (s.jump w).acc = s.acc := rfl
@[simp] theorem State.jump_frameReady (w : Word) (s : State) : (s.jump w).frameReady = s.frameReady := rfl
@[simp] theorem State.jump_status (w : Word) (s : State) : (s.jump w).status = s.status := rfl
@[simp] theorem State.jump_cfg (w : Word) (s : State) : (s.jump w).cfg = s.cfg := rfl
@[simp] theorem State.jump_env (w : Word) (s : State) : (s.jump w).env = s.env := rfl

/-! ### State.advance -/

@[simp] theorem State.advance_V (s : State) : (s.advance).V = s.V := rfl
@[simp] theorem State.advance_I (s : State) : (s.advance).I = s.I := rfl
@[simp] theorem State.advance_pc (s : State) : (s.advance).pc = s.pc + 2 := rfl
@[simp] theorem State.advance_stack (s : State) : (s.advance).stack = s.stack := rfl
@[simp] theorem State.advance_DT (s : State) : (s.advance).DT = s.DT := rfl
@[simp] theorem State.advance_ST (s : State) : (s.advance).ST = s.ST := rfl
@[simp] theorem State.advance_mem (s : State) : (s.advance).mem = s.mem := rfl
@[simp] theorem State.advance_fb (s : State) : (s.advance).fb = s.fb := rfl
@[simp] theorem State.advance_cur (s : State) : (s.advance).cur = s.cur := rfl
@[simp] theorem State.advance_shadow (s : State) : (s.advance).shadow = s.shadow := rfl
@[simp] theorem State.advance_relTs (s : State) : (s.advance).relTs = s.relTs := rfl
@[simp] theorem State.advance_fontAddr (s : State) : (s.advance).fontAddr = s.fontAddr := rfl
@[simp] theorem State.advance_acc (s : State) : (s.advance).acc = s.acc := rfl
@[simp] theorem State.advance_frameReady (s : State) : (s.advance).frameReady = s.frameReady := rfl
@[simp] theorem State.advance_status (s : State) : (s.advance).status = s.status := rfl
@[simp] theorem State.advance_cfg (s : State) : (s.advance).cfg = s.cfg := rfl
@[simp] theorem State.advance_env (s : State) : (s.advance).env = s.env := rfl

/-! ### State.skipIf -/

@[simp] theorem State.skipIf_V (c : Bool) (s : State) : (s.skipIf c).V = s.V := rfl
@[simp] theorem State.skipIf_I (c : Bool) (s : State) : (s.skipIf c).I = s.I := rfl
@[simp] theorem State.skipIf_pc (c : Bool) (s : State) : (s.skipIf c).pc = if c then s.pc + 4 else s.pc + 2 := rfl
@[simp] theorem State.skipIf_stack (c : Bool) (s : State) : (s.skipIf c).stack = s.stack := rfl
@[simp] theorem State.skipIf_DT (c : Bool) (s : State) : (s.skipIf c).DT = s.DT := rfl
@[simp] theorem State.skipIf_ST (c : Bool) (s : State) : (s.skipIf c).ST = s.ST := rfl
@[simp] theorem State.skipIf_mem (c : Bool) (s : State) : (s.skipIf c).mem = s.mem := rfl
@[simp] theorem State.skipIf_fb (c : Bool) (s : State) : (s.skipIf c).fb = s.fb := rfl
@[simp] theorem State.skipIf_cur (c : Bool) (s : State) : (s.skipIf c).cur = s.cur := rfl
@[simp] theorem State.skipIf_shadow (c : Bool) (s : State) : (s.skipIf c).shadow = s.shadow := rfl
@[simp] theorem State.skipIf_relTs (c : Bool) (s : State) : (s.skipIf c).relTs = s.relTs := rfl
@[simp] theorem State.skipIf_fontAddr (c : Bool) (s : State) : (s.skipIf c).fontAddr = s.fontAddr := rfl
@[simp] theorem State.skipIf_acc (c : Bool) (s : State) : (s.skipIf c).acc = s.acc := rfl
@[simp] theorem State.skipIf_frameReady (c : Bool) (s : State) : (s.skipIf c).frameReady = s.frameReady := rfl
@[simp] theorem State.skipIf_status (c : Bool) (s : State) : (s.skipIf c).status = s.status := rfl
@[simp] theorem State.skipIf_cfg (c : Bool) (s : State) : (s.skipIf c).cfg = s.cfg := rfl
@[simp] theorem State.skipIf_env (c : Bool) (s : State) : (s.skipIf c).env = s.env := rfl

/-! ### State.push -/

@[simp] theorem State.push_V (w : Word) (s : State) : (s.push w).V = s.V := rfl
@[simp] theorem State.push_I (w : Word) (s : State) : (s.push w).I = s.I := rfl
@[simp] theorem State.push_pc (w : Word) (s : State) : (s.push w).pc = s.pc := rfl
@[simp] theorem State.push_stack (w : Word) (s : State) : (s.push w).stack = s.stack ++ [w] := rfl
@[simp] theorem State.push_DT (w : Word) (s : State) : (s.push w).DT = s.DT := rfl
@[simp] theorem State.push_ST (w : Word) (s : State) : (s.push w).ST = s.ST := rfl
@[simp] theorem State.push_mem (w : Word) (s : State) : (s.push w).mem = s.mem := rfl
@[simp] theorem State.push_fb (w : Word) (s : State) : (s.push w).fb = s.fb := rfl
@[simp] theorem State.push_cur (w : Word) (s : State) : (s.push w).cur = s.cur := rfl
@[simp] theorem State.push_shadow (w : Word) (s : State) : (s.push w).shadow = s.shadow := rfl
@[simp] theorem State.push_relTs (w : Word) (s : State) : (s.push w).relTs = s.relTs := rfl
@[simp] theorem State.push_fontAddr (w : Word) (s : State) : (s.push w).fontAddr = s.fontAddr := rfl
@[simp] theorem State.push_acc (w : Word) (s : State) : (s.push w).acc = s.acc := rfl
@[simp] theorem State.push_frameReady (w : Word) (s : State) : (s.push w).frameReady = s.frameReady := rfl
@[simp] theorem State.push_status (w : Word) (s : State) : (s.push w).status = s.status := rfl
@[simp] theorem State.push_cfg (w : Word) (s : State) : (s.push w).cfg = s.cfg := rfl
@[simp] theorem State.push_env (w : Word) (s : State) : (s.push w).env = s.env := rfl

/-! ### State.dropTop -/

@[simp] theorem State.dropTop_V (s : State) : (s.dropTop).V = s.V := rfl
@[simp] theorem State.dropTop_I (s : State) : (s.dropTop).I = s.I := rfl
@[simp] theorem State.dropTop_pc (s : State) : (s.dropTop).pc = s.pc := rfl
@[simp] theorem State.dropTop_stack (s : State) : (s.dropTop).stack = s.stack.dropLast := rfl
@[simp] theorem State.dropTop_DT (s : State) : (s.dropTop).DT = s.DT := rfl
@[simp] theorem State.dropTop_ST (s : State) : (s.dropTop).ST = s.ST := rfl
@[simp] theorem State.dropTop_mem (s : State) : (s.dropTop).mem = s.mem := rfl
@[simp] theorem State.dropTop_fb (s : State) : (s.dropTop).fb = s.fb := rfl
@[simp] theorem State.dropTop_cur (s : State) : (s.dropTop).cur = s.cur := rfl
@[simp] theorem State.dropTop_shadow (s : State) : (s.dropTop).shadow = s.shadow := rfl
@[simp] theorem State.dropTop_relTs (s : State) : (s.dropTop).relTs = s.relTs := rfl
@[simp] theorem State.dropTop_fontAddr (s : State) : (s.dropTop).fontAddr = s.fontAddr := rfl
@[simp] theorem State.dropTop_acc (s : State) : (s.dropTop).acc = s.acc := rfl
@[simp] theorem State.dropTop_frameReady (s : State) : (s.dropTop).frameReady = s.frameReady := rfl
@[simp] theorem State.dropTop_status (s : State) : (s.dropTop).status = s.status := rfl
@[simp] theorem State.dropTop_cfg (s : State) : (s.dropTop).cfg = s.cfg := rfl
@[simp] theorem State.dropTop_env (s : State) : (s.dropTop).env = s.env := rfl

/-! ### State.storeBytes -/

@[simp] theorem State.storeBytes_V (a : Nat) (bs : List Byte) (s : State) : (s.storeBytes a bs).V = s.V := rfl
@[simp] theorem State.storeBytes_I (a : Nat) (bs : List Byte) (s : State) : (s.storeBytes a bs).I = s.I := rfl
@[simp] theorem State.storeBytes_pc (a : Nat) (bs : List Byte) (s : State) : (s.storeBytes a bs).pc = s.pc := rfl
@[simp] theorem State.storeBytes_stack (a : Nat) (bs : List Byte) (s : State) : (s.storeBytes a bs).stack = s.stack := rfl
@[simp] theorem State.storeBytes_DT (a : Nat) (bs : List Byte) (s : State) : (s.storeBytes a bs).DT = s.DT := rfl
@[simp] theorem State.storeBytes_ST (a : Nat) (bs : List Byte) (s : State) : (s.storeBytes a bs).ST = s.ST := rfl
@[simp] theorem State.storeBytes_mem (a : Nat) (bs : List Byte) (s : State) : (s.storeBytes a bs).mem = s.mem.store a bs := rfl
@[simp] theorem State.storeBytes_fb (a : Nat) (bs : List Byte) (s : State) : (s.storeBytes a bs).fb = s.fb := rfl
@[simp] theorem State.storeBytes_cur (a : Nat) (bs : List Byte) (s : State) : (s.storeBytes a bs).cur = s.cur := rfl
@[simp] theorem State.storeBytes_shadow (a : Nat) (bs : List Byte) (s : State) : (s.storeBytes a bs).shadow = s.shadow := rfl
@[simp] theorem State.storeBytes_relTs (a : Nat) (bs : List Byte) (s : State) : (s.storeBytes a bs).relTs = s.relTs := rfl
@[simp] theorem State.storeBytes_fontAddr (a : Nat) (bs : List Byte) (s : State) : (s.storeBytes a bs).fontAddr = s.fontAddr := rfl
@[simp] theorem State.storeBytes_acc (a : Nat) (bs : List Byte) (s : State) : (s.storeBytes a bs).acc = s.acc := rfl
@[simp] theorem State.storeBytes_frameReady (a : Nat) (bs : List Byte) (s : State) : (s.storeBytes a bs).frameReady = s.frameReady := rfl
@[simp] theorem State.storeBytes_status (a : Nat) (bs : List Byte) (s : State) : (s.storeBytes a bs).status = s.status := rfl
@[simp] theorem State.storeBytes_cfg (a : Nat) (bs : List Byte) (s : State) : (s.storeBytes a bs).cfg = s.cfg := rfl
@[simp] theorem State.storeBytes_env (a : Nat) (bs : List Byte) (s : State) : (s.storeBytes a bs).env = s.env := rfl

/-! ### State.setFb -/

@[simp] theorem State.setFb_V (f : Frame) (s : State) : (s.setFb f).V = s.V := rfl
@[simp] theorem State.setFb_I (f : Frame) (s : State) : (s.setFb f).I = s.I := rfl
@[simp] theorem State.setFb_pc (f : Frame) (s : State) : (s.setFb f).pc = s.pc := rfl
@[simp] theorem State.setFb_stack (f : Frame) (s : State) : (s.setFb f).stack = s.stack := rfl
@[simp] theorem State.setFb_DT (f : Frame) (s : State) : (s.setFb f).DT = s.DT := rfl
@[simp] theorem State.setFb_ST (f : Frame) (s : State) : (s.setFb f).ST = s.ST := rfl
@[simp] theorem State.setFb_mem (f : Frame) (s : State) : (s.setFb f).mem = s.mem := rfl
@[simp] theorem State.setFb_fb (f : Frame) (s : State) : (s.setFb f).fb = f := rfl
@[simp] theorem State.setFb_cur (f : Frame) (s : State) : (s.setFb f).cur = s.cur := rfl
@[simp] theorem State.setFb_shadow (f : Frame) (s : State) : (s.setFb f).shadow = s.shadow := rfl
@[simp] theorem State.setFb_relTs (f : Frame) (s : State) : (s.setFb f).relTs = s.relTs := rfl
@[simp] theorem State.setFb_fontAddr (f : Frame) (s : State) : (s.setFb f).fontAddr = s.fontAddr := rfl
@[simp] theorem State.setFb_acc (f : Frame) (s : State) : (s.setFb f).acc = s.acc := rfl
@[simp] theorem State.setFb_frameReady (f : Frame) (s : State) : (s.setFb f).frameReady = s.frameReady := rfl
@[simp] theorem State.setFb_status (f : Frame) (s : State) : (s.setFb f).status = s.status := rfl
@[simp] theorem State.setFb_cfg (f : Frame) (s : State) : (s.setFb f).cfg = s.cfg := rfl
@[simp] theorem State.setFb_env (f : Frame) (s : State) : (s.setFb f).env = s.env := rfl

/-! ### State.loadRegs -/

@[simp] theorem State.loadRegs_V (x : Reg) (a : Nat) (s : State) : (s.loadRegs x a).V = s.loadedRegs x a := rfl
@[simp] theorem State.loadRegs_I (x : Reg) (a : Nat) (s : State) : (s.loadRegs x a).I = s.I := rfl
@[simp] theorem State.loadRegs_pc (x : Reg) (a : Nat) (s : State) : (s.loadRegs x a).pc = s.pc := rfl
@[simp] theorem State.loadRegs_stack (x : Reg) (a : Nat) (s : State) : (s.loadRegs x a).stack = s.stack := rfl
@[simp] theorem State.loadRegs_DT (x : Reg) (a : Nat) (s : State) : (s.loadRegs x a).DT = s.DT := rfl
@[simp] theorem State.loadRegs_ST (x : Reg) (a : Nat) (s : State) : (s.loadRegs x a).ST = s.ST := rfl
@[simp] theorem State.loadRegs_mem (x : Reg) (a : Nat) (s : State) : (s.loadRegs x a).mem = s.mem := rfl
@[simp] theorem State.loadRegs_fb (x : Reg) (a : Nat) (s : State) : (s.loadRegs x a).fb = s.fb := rfl
@[simp] theorem State.loadRegs_cur (x : Reg) (a : Nat) (s : State) : (s.loadRegs x a).cur = s.cur := rfl
@[simp] theorem State.loadRegs_shadow (x : Reg) (a : Nat) (s : State) : (s.loadRegs x a).shadow = s.shadow := rfl
@[simp] theorem State.loadRegs_relTs (x : Reg) (a : Nat) (s : State) : (s.loadRegs x a).relTs = s.relTs := rfl
@[simp] theorem State.loadRegs_fontAddr (x : Reg) (a : Nat) (s : State) : (s.loadRegs x a).fontAddr = s.fontAddr := rfl
@[simp] theorem State.loadRegs_acc (x : Reg) (a : Nat) (s : State) : (s.loadRegs x a).acc = s.acc := rfl
@[simp] theorem State.loadRegs_frameReady (x : Reg) (a : Nat) (s : State) : (s.loadRegs x a).frameReady = s.frameReady := rfl
@[simp] theorem State.loadRegs_status (x : Reg) (a : Nat) (s : State) : (s.loadRegs x a).status = s.status := rfl
@[simp] theorem State.loadRegs_cfg (x : Reg) (a : Nat) (s : State) : (s.loadRegs x a).cfg = s.cfg := rfl
@[simp] theorem State.loadRegs_env (x : Reg) (a : Nat) (s : State) : (s.loadRegs x a).env = s.env := rfl

/-! ### Registers after an update -/

@[simp] theorem State.getV_setV_same (x : Reg) (b : Byte) (s : State) : (s.setV x b).getV x = b := by
  simp [State.getV]

theorem State.getV_setV (x r : Reg) (b : Byte) (s : State) :
    (s.setV x b).getV r = if r = x then b else s.getV r := by
  simp only [State.getV, State.setV_V, Fin.getElem_fin, Vector.getElem_set, Fin.ext_iff]
  by_cases h : x.val = r.val
  · simp [h]
  · simp [h, Ne.symm h]

@[simp] theorem State.getV_setV_other {x r : Reg} (b : Byte) (s : State) (h : r ≠ x) :
    (s.setV x b).getV r = s.getV r := by
  rw [State.getV_setV, if_neg h]

theorem State.getV_setVIf (c : Bool) (x r : Reg) (b : Byte) (s : State) :
    (s.setVIf c x b).getV r = if c = true ∧ r = x then b else s.getV r := by
  cases c
  · simp [State.setVIf, State.getV]
  · simpa [State.setVIf, State.setV] using State.getV_setV x r b s

theorem State.getV_loadRegs (x r : Reg) (a : Nat) (s : State) :
    (s.loadRegs x a).getV r = if r ≤ x then s.mem.read (a + r.val) else s.getV r := by
  simp [State.getV, State.loadedRegs]

@[simp] theorem State.getV_advance (s : State) (r : Reg) : (s.advance).getV r = s.getV r := rfl
@[simp] theorem State.getV_jump (w : Word) (s : State) (r : Reg) : (s.jump w).getV r = s.getV r := rfl
@[simp] theorem State.getV_skipIf (c : Bool) (s : State) (r : Reg) : (s.skipIf c).getV r = s.getV r := rfl
@[simp] theorem State.getV_setI (w : Word) (s : State) (r : Reg) : (s.setI w).getV r = s.getV r := rfl
@[simp] theorem State.getV_setDT (b : Byte) (s : State) (r : Reg) : (s.setDT b).getV r = s.getV r := rfl
@[simp] theorem State.getV_setST (b : Byte) (s : State) (r : Reg) : (s.setST b).getV r = s.getV r := rfl
@[simp] theorem State.getV_push (w : Word) (s : State) (r : Reg) : (s.push w).getV r = s.getV r := rfl
@[simp] theorem State.getV_dropTop (s : State) (r : Reg) : (s.dropTop).getV r = s.getV r := rfl
@[simp] theorem State.getV_storeBytes (a : Nat) (bs : List Byte) (s : State) (r : Reg) : (s.storeBytes a bs).getV r = s.getV r := rfl
@[simp] theorem State.getV_setFb (f : Frame) (s : State) (r : Reg) : (s.setFb f).getV r = s.getV r := rfl

end Sys2Proof.Machine
end

