-- ==== Sys2Proof/Laws/Exec.lean ====
section
/-! SUPPORT. What the meaning of an instruction can do: enter Halted with nothing else changed, or have its effect,
which never touches the keypad, the scheduler, the configuration or the outside world. -/

namespace Sys2Proof.Machine

/-- The pieces of state no instruction writes (10_state.md R10, R21 to R27). -/
structure ExecKeeps (s t : State) : Prop where
  cur        : t.cur = s.cur
  shadow     : t.shadow = s.shadow
  relTs      : t.relTs = s.relTs
  fontAddr   : t.fontAddr = s.fontAddr
  acc        : t.acc = s.acc
  frameReady : t.frameReady = s.frameReady
  cfg        : t.cfg = s.cfg
  env        : t.env = s.env
  status     : t.status = s.status

theorem ExecKeeps.refl (s : State) : ExecKeeps s s := ⟨rfl, rfl, rfl, rfl, rfl, rfl, rfl, rfl, rfl⟩

/-- What an outcome can be: Halted with nothing else changed, or a state with the kept pieces as they were. -/
def ExecOutcome (s : State) (o : Out) : Prop :=
  ∀ t, o = .next t → (∃ kind info, t = haltedWith kind info s) ∨ ExecKeeps s t

theorem ExecOutcome.raise (kind : FaultKind) (info : Nat) (s : State) : ExecOutcome s (raise kind info s) := by
  intro t h
  injection h with h
  exact .inl ⟨kind, info, h.symm⟩

theorem ExecOutcome.next {s e : State} (h : ExecKeeps s e) : ExecOutcome s (.next e) := by
  intro t he
  injection he with he
  exact .inr (he ▸ h)

theorem ExecOutcome.checkRange {n : Nat} {s e : State} (h : ExecKeeps s e) :
    ExecOutcome s (Machine.checkRange n s e) := by
  unfold Machine.checkRange
  split
  · exact ExecOutcome.raise _ _ _
  · exact ExecOutcome.next h

theorem exec_outcome (i : Instr) (s : State) : ExecOutcome s (exec i s) := by
  have keeps : ExecKeeps s s := .refl s
  cases i with
  | ret =>
    simp only [exec, execRet]
    split
    · exact .raise _ _ _
    · exact .next ⟨rfl, rfl, rfl, rfl, rfl, rfl, rfl, rfl, rfl⟩
  | call nnn =>
    simp only [exec, execCall]
    split
    · exact .raise _ _ _
    · exact .next ⟨rfl, rfl, rfl, rfl, rfl, rfl, rfl, rfl, rfl⟩
  | drw x y n =>
    simp only [exec, execDrw]
    refine .checkRange ?_
    constructor <;> simp
  | ldB x =>
    simp only [exec, execLdB]
    refine .checkRange ?_
    constructor <;> simp
  | stRegs x =>
    simp only [exec, execStRegs]
    refine .checkRange ?_
    constructor <;> simp
  | ldRegs x =>
    simp only [exec, execLdRegs]
    refine .checkRange ?_
    constructor <;> simp
  | ldVxK x =>
    simp only [exec, execLdVxK]
    split
    · exact .next ⟨rfl, rfl, rfl, rfl, rfl, rfl, rfl, rfl, rfl⟩
    · exact .next keeps
  | _ => exact .next ⟨rfl, rfl, rfl, rfl, rfl, rfl, rfl, rfl, rfl⟩

/-- The inversion lemma of `exec`. -/
theorem exec_cases {i : Instr} {s t : State} (h : exec i s = .next t) :
    (∃ kind info, t = haltedWith kind info s) ∨ ExecKeeps s t := exec_outcome i s t h

/-- From a block that is Running, an instruction leaves it Running, or Halted with nothing else changed. -/
theorem exec_status {i : Instr} {s t : State} (hs : s.status = .running) (h : exec i s = .next t) :
    (t.status = .running ∧ ExecKeeps s t) ∨
    (∃ kind info, t = haltedWith kind info s ∧ t.status = .halted ⟨kind, info⟩) := by
  rcases exec_cases h with ⟨kind, info, rfl⟩ | hk
  · exact .inr ⟨kind, info, rfl, rfl⟩
  · exact .inl ⟨hk.status.trans hs, hk⟩

end Sys2Proof.Machine
end

