-- ==== Sys2Proof/Laws/Cycle.lean ====
section
/-! SUPPORT. What one cycle and one step can do: one inversion lemma for each, which the invariants and the
whole-machine statements cite. -/

namespace Sys2Proof.Machine

/-! ### Accounting: one lemma per field -/

section Account

variable (c : Nat) (s : State)

@[simp] theorem State.account_V : (s.account c).V = s.V := rfl
@[simp] theorem State.account_I : (s.account c).I = s.I := rfl
@[simp] theorem State.account_pc : (s.account c).pc = s.pc := rfl
@[simp] theorem State.account_stack : (s.account c).stack = s.stack := rfl
@[simp] theorem State.account_mem : (s.account c).mem = s.mem := rfl
@[simp] theorem State.account_fb : (s.account c).fb = s.fb := rfl
@[simp] theorem State.account_cur : (s.account c).cur = s.cur := rfl
@[simp] theorem State.account_shadow : (s.account c).shadow = s.shadow := rfl
@[simp] theorem State.account_relTs : (s.account c).relTs = s.relTs := rfl
@[simp] theorem State.account_fontAddr : (s.account c).fontAddr = s.fontAddr := rfl
@[simp] theorem State.account_status : (s.account c).status = s.status := rfl
@[simp] theorem State.account_cfg : (s.account c).cfg = s.cfg := rfl
@[simp] theorem State.account_env : (s.account c).env = s.env := rfl

/-- After accounting `acc` is within the budget (60_exceptions.md R224). -/
theorem State.account_acc_le : (s.account c).acc ≤ (s.account c).cfg.frameBudget := by
  simp only [State.account]
  split
  · exact Nat.zero_le _
  · omega

/-- Accounting at a frame boundary. -/
theorem State.account_boundary (h : s.cfg.frameBudget < s.spent c) :
    s.account c = { s with DT := tick s.DT, ST := tick s.ST, frameReady := true, acc := 0 } := by
  simp [State.account, h]

/-- Accounting without a frame boundary. -/
theorem State.account_within (h : s.spent c ≤ s.cfg.frameBudget) :
    s.account c = { s with acc := s.spent c } := by
  simp [State.account, Nat.not_lt.mpr h]

end Account

/-! ### The inputs latched: one lemma per field -/

section Latch

variable (inp : CycleInput) (rest : List Transaction) (s : State)

@[simp] theorem State.latch_inp : (s.latch inp rest).env.inp = inp := rfl
@[simp] theorem State.latch_pending : (s.latch inp rest).env.pending = rest := rfl
@[simp] theorem State.latchFree_inp : s.latchFree.env.inp = s.freeInput := rfl
@[simp] theorem State.latchFree_pending : s.latchFree.env.pending = [] := rfl

/-- Latching the inputs touches the record of the outside world only. -/
theorem State.latch_eq : s.latch inp rest = { s with env := (s.latch inp rest).env } := rfl

theorem State.latchFree_eq : s.latchFree = { s with env := s.latchFree.env } := rfl

end Latch

/-- A cycle begins from the state with only the record of the outside world changed. -/
theorem CycleBegins.only_env {s s1 : State} (h : CycleBegins s s1) : s1 = { s with env := s1.env } := by
  rcases h with ⟨-, rfl⟩ | ⟨inp, rest, -, -, rfl⟩ <;> rfl

/-! ### The cycle -/

theorem fetchBytes_eq (s : State) : s.fetchBytes = [s.mem.read s.pc.toNat, s.mem.read (s.pc.toNat + 1)] := rfl

theorem decode_fetchBytes (s : State) :
    decode s.fetchBytes =
      match decodeOp s.fetchWord with
      | some i => .ok (i, [])
      | none => .error (.unknownOpcode s.fetchWord) := rfl

theorem cycle_halted {s : State} {f : FaultRecord} (h : s.status = .halted f) : cycle s = .next s := by
  simp [cycle, h]

theorem cycle_fetch_fault {s : State} (hs : s.status = .running) (h : 0xFFE < s.pc.toNat) :
    cycle s = .next (haltedWith .memoryOutOfBounds s.pc.toNat s) := by
  simp [cycle, hs, cycleRunning, h, raise, haltedWith]

theorem cycle_unknown {s : State} (hs : s.status = .running) (hp : s.pc.toNat ≤ 0xFFE)
    (h : decodeOp s.fetchWord = none) :
    cycle s = .next (haltedWith .unknownOpcode s.fetchWord.toNat s) := by
  simp [cycle, hs, cycleRunning, Nat.not_lt.mpr hp, decode_fetchBytes, h, raise, haltedWith]

theorem cycle_fetches {s : State} {i : Instr} (h : Fetches s i) : cycle s = runDecoded i s := by
  obtain ⟨hs, hp, hd⟩ := h
  simp [cycle, hs, cycleRunning, Nat.not_lt.mpr hp, decode_fetchBytes, hd]

/-- Everything a cycle can do: idle, halt at the fetch, halt at the decoder, defer, fault in the instruction, or run
it and account. -/
theorem cycle_cases {s t : State} (h : cycle s = .next t) :
    (∃ f, s.status = .halted f ∧ t = s) ∨
    (s.status = .running ∧ 0xFFE < s.pc.toNat ∧ t = haltedWith .memoryOutOfBounds s.pc.toNat s) ∨
    (s.status = .running ∧ s.pc.toNat ≤ 0xFFE ∧ decodeOp s.fetchWord = none ∧
      t = haltedWith .unknownOpcode s.fetchWord.toNat s) ∨
    (∃ i, Fetches s i ∧ s.defers i = true ∧ t = s.account 0) ∨
    (∃ i kind info, Fetches s i ∧ s.defers i = false ∧ exec i s = .next t ∧ t = haltedWith kind info s) ∨
    (∃ i u, Fetches s i ∧ s.defers i = false ∧ exec i s = .next u ∧ u.status = .running ∧
      ExecKeeps s u ∧ t = u.account (s.costOf i)) := by
  cases hs : s.status with
  | halted f =>
    rw [cycle_halted hs] at h
    injection h with h
    exact .inl ⟨f, rfl, h.symm⟩
  | running =>
    refine .inr ?_
    by_cases hp : 0xFFE < s.pc.toNat
    · rw [cycle_fetch_fault hs hp] at h
      injection h with h
      exact .inl ⟨rfl, hp, h.symm⟩
    refine .inr ?_
    cases hd : decodeOp s.fetchWord with
    | none =>
      rw [cycle_unknown hs (by omega) hd] at h
      injection h with h
      exact .inl ⟨rfl, by omega, rfl, h.symm⟩
    | some i =>
      refine .inr ?_
      have hf : Fetches s i := ⟨hs, by omega, hd⟩
      rw [cycle_fetches hf, runDecoded] at h
      cases hdef : s.defers i with
      | true =>
        rw [hdef, if_pos rfl] at h
        injection h with h
        exact .inl ⟨i, hf, hdef, h.symm⟩
      | false =>
        refine .inr ?_
        rw [hdef, if_neg (by decide)] at h
        cases he : exec i s with
        | fault r => exact nomatch r
        | refused r => rw [he] at h; exact nomatch h
        | next u =>
          rw [he, settle] at h
          rcases exec_status hs he with ⟨hu, hk⟩ | ⟨kind, info, hu, hst⟩
          · rw [hu] at h
            injection h with h
            exact .inr ⟨i, u, hf, hdef, he, hu, hk, h.symm⟩
          · rw [hst] at h
            injection h with h
            exact .inl ⟨i, kind, info, hf, hdef, h ▸ he, h ▸ hu⟩

/-! ### The step -/

theorem step_cycle {s s1 : State} (h : CycleBegins s s1) : step s = cycle s1 := by
  rcases h with ⟨hp, rfl⟩ | ⟨inp, rest, hp, ht, rfl⟩
  · simp [step, hp]
  · simp [step, hp, transact, ht]

/-- Everything a step can do: a cycle, or one of the five other transactions. -/
theorem step_cases {s t : State} (h : step s = .next t) :
    (∃ s1, CycleBegins s s1 ∧ cycle s1 = .next t) ∨
    (∃ program c rest, s.env.pending = .construct program c :: rest ∧ constructLegal program c = true ∧
      t = constructed program c { s.env with pending := rest }) ∨
    (∃ rest, s.env.pending = .reset :: rest ∧ t = (s.withPending rest).resetBlock) ∨
    (∃ k rest, s.env.pending = .keyDown k :: rest ∧ t = (s.withPending rest).pressKey k) ∨
    (∃ k u rest, s.env.pending = .keyUp k u :: rest ∧ s.env.lastEvent ≤ u ∧
      t = (s.withEvent u rest).releaseKey k u) ∨
    (∃ rest, s.env.pending = .ackFrame :: rest ∧ t = (s.withPending rest).ackFrame) := by
  cases hp : s.env.pending with
  | nil =>
    rw [step, hp] at h
    exact .inl ⟨s.latchFree, .inl ⟨hp, rfl⟩, h⟩
  | cons tx rest =>
    rw [step, hp] at h
    cases tx with
    | construct program c =>
      simp only [transact] at h
      split at h
      · rename_i hl
        injection h with h
        exact .inr (.inl ⟨program, c, rest, rfl, hl, h.symm⟩)
      · exact nomatch h
    | reset =>
      injection h with h
      exact .inr (.inr (.inl ⟨rest, rfl, h.symm⟩))
    | keyDown k =>
      injection h with h
      exact .inr (.inr (.inr (.inl ⟨k, rest, rfl, h.symm⟩)))
    | keyUp k u =>
      simp only [transact] at h
      split at h
      · rename_i hl
        injection h with h
        exact .inr (.inr (.inr (.inr (.inl ⟨k, u, rest, rfl, hl, h.symm⟩))))
      · exact nomatch h
    | cycle inp =>
      simp only [transact] at h
      split at h
      · rename_i hl
        exact .inl ⟨s.latch inp rest, .inr ⟨inp, rest, hp, hl, rfl⟩, h⟩
      · exact nomatch h
    | ackFrame =>
      injection h with h
      exact .inr (.inr (.inr (.inr (.inr ⟨rest, rfl, h.symm⟩))))

end Sys2Proof.Machine
end

