-- ==== Sys2Proof/Laws/Draw.lean ====
section
/-! SUPPORT. What a drawing does, cell by cell: every pixel of the frame buffer after a sprite, and when a
collision is recorded. Callers cite `drawSprite_pixel` and `drawSprite_collision`. -/

namespace Sys2Proof.Machine

/-- One sprite bit: the cell it lies over is inverted, every other cell stays. -/
theorem drawBit_pixel (on : Bool) (px py : Nat) (d : Drawing) (qx : Fin 64) (qy : Fin 32) :
    (drawBit on px py d).fb.pixel qx qy =
      ((d.fb.pixel qx qy) ^^ (on && decide (qx.val = px) && decide (qy.val = py))) := by
  unfold drawBit Frame.pixel
  split
  · rename_i h
    obtain ⟨hx, hy, rfl⟩ := h
    simp only [Fin.getElem_fin, Vector.getElem_set]
    by_cases e : py = qy.val
    · subst e
      by_cases e' : px = qx.val
      · subst e'; simp
      · simp [e', Ne.symm e']
    · simp [e, Ne.symm e]
  · rename_i h
    have : (on && decide (qx.val = px) && decide (qy.val = py)) = false := by
      by_contra hc
      simp at hc
      exact h ⟨by omega, by omega, hc.1⟩
    simp [this]

/-- A collision is recorded by one sprite bit exactly when it lies over an on cell of the screen. -/
theorem drawBit_collision (on : Bool) (px py : Nat) (d : Drawing) :
    (drawBit on px py d).collision = true ↔
      d.collision = true ∨ on = true ∧ ∃ (qx : Fin 64) (qy : Fin 32), qx.val = px ∧ qy.val = py ∧
        d.fb.pixel qx qy = true := by
  unfold drawBit Frame.pixel
  split
  · rename_i h
    obtain ⟨hx, hy, rfl⟩ := h
    simp only [Bool.or_eq_true, true_and]
    constructor
    · rintro (h | h)
      · exact .inl h
      · exact .inr ⟨⟨px, hx⟩, ⟨py, hy⟩, rfl, rfl, h⟩
    · rintro (h | ⟨qx, qy, rfl, rfl, h⟩)
      · exact .inl h
      · exact .inr h
  · rename_i h
    constructor
    · exact .inl
    · rintro (hc | ⟨ho, qx, qy, rfl, rfl, -⟩)
      · exact hc
      · exact absurd ⟨qx.isLt, qy.isLt, ho⟩ h

/-- The bit that a row has over column qx. -/
def rowBit (b : Byte) (x0 qx : Nat) : Bool := decide (x0 ≤ qx) && decide (qx < x0 + 8) && b.getLsbD (7 - (qx - x0))

/-- The first n bits of a row, left to right. -/
theorem drawRowTo_pixel (b : Byte) (x0 py n : Nat) (d : Drawing) (qx : Fin 64) (qy : Fin 32) :
    ((List.range n).foldl (fun d c => drawBit (b.getLsbD (7 - c)) (x0 + c) py d) d).fb.pixel qx qy =
      ((d.fb.pixel qx qy) ^^ (decide (x0 ≤ qx.val) && decide (qx.val < x0 + n)
        && b.getLsbD (7 - (qx.val - x0)) && decide (qy.val = py))) := by
  induction n with
  | zero =>
    have : (decide (x0 ≤ qx.val) && decide (qx.val < x0 + 0)) = false := by
      by_contra hc
      simp at hc
    rw [this]; simp
  | succ n ih =>
    rw [List.range_succ, List.foldl_append, List.foldl_cons, List.foldl_nil, drawBit_pixel, ih]
    by_cases hq : qx.val = x0 + n
    · simp [hq]
    · have e1 : decide (qx.val < x0 + (n + 1)) = decide (qx.val < x0 + n) := by
        simp only [decide_eq_decide]; omega
      rw [e1]; simp [hq]

theorem drawRowTo_collision (b : Byte) (x0 py n : Nat) (d : Drawing) :
    ((List.range n).foldl (fun d c => drawBit (b.getLsbD (7 - c)) (x0 + c) py d) d).collision = true ↔
      d.collision = true ∨ ∃ (qx : Fin 64) (qy : Fin 32), x0 ≤ qx.val ∧ qx.val < x0 + n ∧
        b.getLsbD (7 - (qx.val - x0)) = true ∧ qy.val = py ∧ d.fb.pixel qx qy = true := by
  induction n with
  | zero =>
    constructor
    · exact .inl
    · rintro (h | ⟨qx, qy, h1, h2, -⟩)
      · exact h
      · omega
  | succ n ih =>
    rw [List.range_succ, List.foldl_append, List.foldl_cons, List.foldl_nil, drawBit_collision, ih]
    constructor
    · rintro ((h | ⟨qx, qy, h1, h2, h3, h4, h5⟩) | ⟨ho, qx, qy, h1, h2, h3⟩)
      · exact .inl h
      · exact .inr ⟨qx, qy, h1, by omega, h3, h4, h5⟩
      · rw [drawRowTo_pixel] at h3
        refine .inr ⟨qx, qy, by omega, by omega, ?_, h2, ?_⟩
        · rw [h1]; simpa using ho
        · have : decide (qx.val < x0 + n) = false := by simp; omega
          simpa [this] using h3
    · rintro (h | ⟨qx, qy, h1, h2, h3, h4, h5⟩)
      · exact .inl (.inl h)
      · by_cases hq : qx.val < x0 + n
        · exact .inl (.inr ⟨qx, qy, h1, hq, h3, h4, h5⟩)
        · have e : qx.val = x0 + n := by omega
          refine .inr ⟨?_, qx, qy, e, h4, ?_⟩
          · rw [e] at h3; simpa using h3
          · rw [drawRowTo_pixel]
            have : decide (qx.val < x0 + n) = false := by simp; omega
            simp [this, h5]

theorem drawRow_pixel (b : Byte) (x0 py : Nat) (d : Drawing) (qx : Fin 64) (qy : Fin 32) :
    (drawRow b x0 py d).fb.pixel qx qy = ((d.fb.pixel qx qy) ^^ (rowBit b x0 qx.val && decide (qy.val = py))) :=
  drawRowTo_pixel b x0 py 8 d qx qy

theorem drawRow_collision (b : Byte) (x0 py : Nat) (d : Drawing) :
    (drawRow b x0 py d).collision = true ↔
      d.collision = true ∨ ∃ (qx : Fin 64) (qy : Fin 32), rowBit b x0 qx.val = true ∧ qy.val = py ∧
        d.fb.pixel qx qy = true := by
  have := drawRowTo_collision b x0 py 8 d
  simpa only [drawRow, rowBit, Bool.and_eq_true, decide_eq_true_eq, and_assoc] using this

/-- The sprite's bit over a cell, from its first row and the rest. -/
theorem spriteBit_cons (b : Byte) (bs : List Byte) (x0 y0 px py : Nat) :
    spriteBit (b :: bs) x0 y0 px py =
      ((rowBit b x0 px && decide (py = y0)) ^^ spriteBit bs x0 (y0 + 1) px py) := by
  unfold spriteBit rowBit
  by_cases h : py = y0
  · subst h; simp
  · by_cases h' : y0 + 1 ≤ py
    · have e : py - y0 = (py - (y0 + 1)) + 1 := by omega
      have h2 : y0 ≤ py := by omega
      simp [h, h', h2, e]
    · have h2 : ¬ y0 ≤ py := by omega
      simp [h, h', h2]

theorem drawRows_pixel (bs : List Byte) (x0 y0 : Nat) (d : Drawing) (qx : Fin 64) (qy : Fin 32) :
    (drawRows bs x0 y0 d).fb.pixel qx qy = ((d.fb.pixel qx qy) ^^ spriteBit bs x0 y0 qx.val qy.val) := by
  induction bs generalizing y0 d with
  | nil => simp [drawRows, spriteBit]
  | cons b bs ih => rw [drawRows, ih, drawRow_pixel, spriteBit_cons, Bool.xor_assoc]

theorem drawRows_collision (bs : List Byte) (x0 y0 : Nat) (d : Drawing) :
    (drawRows bs x0 y0 d).collision = true ↔
      d.collision = true ∨ ∃ (qx : Fin 64) (qy : Fin 32), spriteBit bs x0 y0 qx.val qy.val = true ∧
        d.fb.pixel qx qy = true := by
  induction bs generalizing y0 d with
  | nil => simp [drawRows, spriteBit]
  | cons b bs ih =>
    rw [drawRows, ih, drawRow_collision]
    have hrow : ∀ py, py ≠ y0 → ∀ px, spriteBit (b :: bs) x0 y0 px py = spriteBit bs x0 (y0 + 1) px py := by
      intro py hpy px; rw [spriteBit_cons]; simp [hpy]
    have hbelow : ∀ px, spriteBit bs x0 (y0 + 1) px y0 = false := by
      intro px; simp [spriteBit]
    constructor
    · rintro ((h | ⟨qx, qy, h1, h2, h3⟩) | ⟨qx, qy, h1, h2⟩)
      · exact .inl h
      · refine .inr ⟨qx, qy, ?_, h3⟩
        rw [spriteBit_cons, h2, hbelow, h1]; simp
      · by_cases hy : qy.val = y0
        · rw [hy, hbelow] at h1; cases h1
        · refine .inr ⟨qx, qy, by rw [hrow _ hy, h1], ?_⟩
          rw [drawRow_pixel] at h2
          simpa [hy] using h2
    · rintro (h | ⟨qx, qy, h1, h2⟩)
      · exact .inl (.inl h)
      · by_cases hy : qy.val = y0
        · refine .inl (.inr ⟨qx, qy, ?_, hy, h2⟩)
          rw [spriteBit_cons, hy, hbelow] at h1
          simpa using h1
        · refine .inr ⟨qx, qy, by rw [← hrow _ hy, h1], ?_⟩
          rw [drawRow_pixel]
          simp [hy, h2]

/-- Every cell after a sprite: XOR with the sprite's bit over it (45_draw.md R153). -/
theorem drawSprite_pixel (bs : List Byte) (x0 y0 : Nat) (fb : Frame) (qx : Fin 64) (qy : Fin 32) :
    (drawSprite bs x0 y0 fb).fb.pixel qx qy = ((fb.pixel qx qy) ^^ spriteBit bs x0 y0 qx.val qy.val) :=
  drawRows_pixel bs x0 y0 ⟨fb, false⟩ qx qy

/-- A sprite collides exactly when one of its bits lies over an on cell of the screen. -/
theorem drawSprite_collision (bs : List Byte) (x0 y0 : Nat) (fb : Frame) :
    (drawSprite bs x0 y0 fb).collision = true ↔
      ∃ (qx : Fin 64) (qy : Fin 32), spriteBit bs x0 y0 qx.val qy.val = true ∧ fb.pixel qx qy = true := by
  simpa [drawSprite] using drawRows_collision bs x0 y0 ⟨fb, false⟩

/-- Two frame buffers with the same pixels are equal. -/
theorem Frame.ext_of_pixel {f g : Frame} (h : ∀ qx qy, f.pixel qx qy = g.pixel qx qy) : f = g := by
  apply Vector.ext
  intro i hi
  apply Vector.ext
  intro j hj
  exact h ⟨j, hj⟩ ⟨i, hi⟩

/-- The flat, row-major view (10_state.md R20). -/
theorem Frame.cell_eq_pixel (f : Frame) (px : Fin 64) (py : Fin 32) :
    f.cell ⟨py.val * 64 + px.val, by omega⟩ = f.pixel px py := by
  have e1 : (py.val * 64 + px.val) / 64 = py.val := by omega
  have e2 : (py.val * 64 + px.val) % 64 = px.val := by omega
  simp [Frame.cell, Frame.pixel, e1, e2]

end Sys2Proof.Machine
end

