-- ==== Sys2Proof/Laws/Memory.lean ====
section
/-! SUPPORT. What the memory operations do: every read after a write, and that every write keeps the canonical
form. -/

namespace Sys2Proof.Machine

@[simp] theorem Memory.read_nil (a : Nat) : Memory.read [] a = unlistedByte := rfl

theorem Memory.read_cons (k : Nat) (b : Byte) (m : Memory) (a : Nat) :
    Memory.read ((k, b) :: m) a = if k = a then b else Memory.read m a := rfl

theorem Memory.read_erase (m : Memory) (a k : Nat) :
    Memory.read (m.erase a) k = if k = a then unlistedByte else Memory.read m k := by
  induction m with
  | nil => simp [Memory.erase]
  | cons c m ih =>
    obtain ⟨j, b⟩ := c
    simp only [Memory.erase] at ih
    by_cases hj : j = a
    · subst hj
      simp only [Memory.erase, List.filter_cons, bne_self_eq_false, Bool.false_eq_true, if_false, ih,
        Memory.read_cons]
      by_cases hk : k = j
      · simp [hk]
      · simp [hk, Ne.symm hk]
    · simp only [Memory.erase, List.filter_cons, bne_iff_ne, ne_eq, hj, not_false_eq_true, if_true,
        Memory.read_cons, ih]
      by_cases hk : k = a
      · subst hk; simp [hj]
      · simp [hk]

theorem Memory.read_insert (a : Nat) (b : Byte) (m : Memory) (h : ∀ c ∈ m, c.1 ≠ a) (k : Nat) :
    Memory.read (Memory.insert a b m) k = if k = a then b else Memory.read m k := by
  induction m with
  | nil =>
    by_cases hk : k = a
    · simp [Memory.insert, Memory.read_cons, hk]
    · simp [Memory.insert, Memory.read_cons, hk, Ne.symm hk]
  | cons c m ih =>
    obtain ⟨j, d⟩ := c
    have hj : j ≠ a := h (j, d) (by simp)
    have ih := ih fun c hc => h c (by simp [hc])
    simp only [Memory.insert]
    split
    · by_cases hk : k = a
      · simp [Memory.read_cons, hk]
      · simp [Memory.read_cons, hk, Ne.symm hk]
    · simp only [Memory.read_cons, ih]
      by_cases hk : k = a
      · subst hk; simp [hj]
      · simp [hk]

theorem Memory.erase_ne (m : Memory) (a : Nat) : ∀ c ∈ m.erase a, c.1 ≠ a := by
  intro c hc
  simpa [Memory.erase] using (List.mem_filter.mp hc).2

/-- A write changes that one cell and nothing else (20_memory.md R41), in every memory. -/
theorem Memory.read_write (m : Memory) (a : Nat) (b : Byte) (k : Nat) :
    (m.write a b).read k = if k = a then b else m.read k := by
  unfold Memory.write
  split
  · rename_i h; rw [Memory.read_erase, h]
  · rw [Memory.read_insert _ _ _ (m.erase_ne a), Memory.read_erase]
    by_cases hk : k = a <;> simp [hk]

/-- Bytes stored from `a` on: each address in the range reads its byte, every other one as before. -/
theorem Memory.read_store (m : Memory) (a : Nat) (bs : List Byte) (k : Nat) :
    (m.store a bs).read k = if a ≤ k ∧ k < a + bs.length then bs.getD (k - a) 0 else m.read k := by
  induction bs generalizing m a with
  | nil =>
    have : ¬(a ≤ k ∧ k < a) := by omega
    simp [Memory.store, this]
  | cons b bs ih =>
    simp only [Memory.store, ih, Memory.read_write, List.length_cons]
    by_cases h1 : a + 1 ≤ k ∧ k < a + 1 + bs.length
    · obtain ⟨j, rfl⟩ : ∃ j, k = a + 1 + j := ⟨k - (a + 1), by omega⟩
      have h2 : a ≤ a + 1 + j ∧ a + 1 + j < a + (bs.length + 1) := by omega
      have e : a + 1 + j - a = j + 1 := by omega
      rw [if_pos h1, if_pos h2, e, Nat.add_sub_cancel_left]
      simp
    · rw [if_neg h1]
      by_cases hk : k = a
      · subst hk
        have h2 : k ≤ k ∧ k < k + (bs.length + 1) := by omega
        simp
      · have h2 : ¬(a ≤ k ∧ k < a + (bs.length + 1)) := by omega
        rw [if_neg hk, if_neg h2]

theorem Memory.read_store_outside (m : Memory) (a : Nat) (bs : List Byte) {k : Nat}
    (h : k < a ∨ a + bs.length ≤ k) : (m.store a bs).read k = m.read k := by
  rw [Memory.read_store, if_neg (by omega)]

theorem Memory.load_length (m : Memory) (a n : Nat) : (m.load a n).length = n := by
  simp [Memory.load]

theorem Memory.load_getElem (m : Memory) (a n r : Nat) (h : r < (m.load a n).length) :
    (m.load a n)[r] = m.read (a + r) := by
  simp [Memory.load]

/-! ### The canonical form -/

theorem Memory.wf_nil : Memory.wf [] := by simp [Memory.wf]

theorem Memory.wf_erase {m : Memory} (h : m.wf) (a : Nat) : (m.erase a).wf :=
  ⟨h.1.filter _, fun c hc => h.2 c (List.mem_of_mem_filter hc)⟩

theorem Memory.mem_insert {a : Nat} {b : Byte} {m : Memory} {c : Host.Cell}
    (h : c ∈ Memory.insert a b m) : c = (a, b) ∨ c ∈ m := by
  induction m with
  | nil => simpa [Memory.insert] using h
  | cons d m ih =>
    simp only [Memory.insert] at h
    split at h
    · simpa using h
    · rcases List.mem_cons.mp h with rfl | h
      · simp
      · rcases ih h with rfl | h
        · simp
        · simp [h]

theorem Memory.wf_insert {m : Memory} (h : m.wf) {a : Nat} {b : Byte} (ha : a < memSize)
    (hb : b ≠ unlistedByte) (hne : ∀ c ∈ m, c.1 ≠ a) : (Memory.insert a b m).wf := by
  induction m with
  | nil => simp [Memory.insert, Memory.wf, ha, hb]
  | cons d m ih =>
    obtain ⟨j, e⟩ := d
    obtain ⟨hp, hm⟩ := h
    obtain ⟨hhead, htail⟩ := List.pairwise_cons.mp hp
    have hja : j ≠ a := hne (j, e) (by simp)
    have hwf : Memory.wf m := ⟨htail, fun c hc => hm c (by simp [hc])⟩
    have ih := ih hwf fun c hc => hne c (by simp [hc])
    simp only [Memory.insert]
    split
    · rename_i hlt
      refine ⟨List.pairwise_cons.mpr ⟨fun c hc => ?_, hp⟩, fun c hc => ?_⟩
      · rcases List.mem_cons.mp hc with rfl | hc
        · exact hlt
        · exact lt_trans hlt (hhead c hc)
      · rcases List.mem_cons.mp hc with rfl | hc
        · exact ⟨ha, hb⟩
        · exact hm c hc
    · rename_i hlt
      refine ⟨List.pairwise_cons.mpr ⟨fun c hc => ?_, ih.1⟩, fun c hc => ?_⟩
      · rcases Memory.mem_insert hc with rfl | hc
        · show j < a
          omega
        · exact hhead c hc
      · rcases List.mem_cons.mp hc with rfl | hc
        · exact hm (j, e) (by simp)
        · exact ih.2 c hc

/-- Every write below 4096 keeps the canonical form. -/
theorem Memory.wf_write {m : Memory} (h : m.wf) {a : Nat} (ha : a < memSize) (b : Byte) :
    (m.write a b).wf := by
  unfold Memory.write
  split
  · exact Memory.wf_erase h a
  · rename_i hb
    exact Memory.wf_insert (Memory.wf_erase h a) ha hb (m.erase_ne a)

theorem Memory.wf_store {m : Memory} (h : m.wf) {a : Nat} {bs : List Byte} (ha : a + bs.length ≤ memSize) :
    (m.store a bs).wf := by
  induction bs generalizing m a with
  | nil => exact h
  | cons b bs ih =>
    simp only [List.length_cons] at ha
    exact ih (Memory.wf_write h (by omega) b) (by omega)

/-- A cell of a memory in canonical form is what its address reads as. -/
theorem Memory.read_of_mem {m : Memory} (h : m.wf) {c : Host.Cell} (hc : c ∈ m) : m.read c.1 = c.2 := by
  induction m with
  | nil => simp at hc
  | cons d m ih =>
    obtain ⟨hp, hm⟩ := h
    obtain ⟨hhead, htail⟩ := List.pairwise_cons.mp hp
    rcases List.mem_cons.mp hc with rfl | hc'
    · simp [Memory.read]
    · have hlt := hhead c hc'
      rw [show d = (d.1, d.2) from rfl, Memory.read_cons, if_neg (by omega)]
      exact ih ⟨htail, fun c hc => hm c (by simp [hc])⟩ hc'

/-- An address below every cell reads as unlisted. -/
theorem Memory.read_below {m : Memory} {a : Nat} (h : ∀ c ∈ m, a < c.1) : m.read a = unlistedByte := by
  induction m with
  | nil => rfl
  | cons d m ih =>
    have hd := h d (by simp)
    rw [show d = (d.1, d.2) from rfl, Memory.read_cons, if_neg (by omega)]
    exact ih fun c hc => h c (by simp [hc])

/-- Equal memories are equal data: two memories in canonical form that read alike everywhere are equal. -/
theorem Memory.ext_of_read {m m' : Memory} (h : m.wf) (h' : m'.wf) (heq : ∀ a, m.read a = m'.read a) :
    m = m' := by
  induction m generalizing m' with
  | nil =>
    cases m' with
    | nil => rfl
    | cons d m' =>
      have := Memory.read_of_mem h' (c := d) (by simp)
      exact absurd (this.symm.trans (heq d.1).symm) (h'.2 d (by simp)).2
  | cons c m ih =>
    obtain ⟨hc, ht⟩ := List.pairwise_cons.mp h.1
    have hrc := Memory.read_of_mem h (c := c) (by simp)
    have hnc := (h.2 c (by simp)).2
    cases m' with
    | nil => exact absurd (hrc.symm.trans (heq c.1)) hnc
    | cons d m' =>
      obtain ⟨hd, ht'⟩ := List.pairwise_cons.mp h'.1
      have hrd := Memory.read_of_mem h' (c := d) (by simp)
      have hnd := (h'.2 d (by simp)).2
      have key : c.1 = d.1 := by
        rcases lt_trichotomy c.1 d.1 with hlt | heq' | hgt
        · have := Memory.read_below (m := d :: m') (a := c.1) fun e he => by
            rcases List.mem_cons.mp he with rfl | he
            · exact hlt
            · exact lt_trans hlt (hd e he)
          exact absurd (hrc.symm.trans ((heq c.1).trans this)) hnc
        · exact heq'
        · have := Memory.read_below (m := c :: m) (a := d.1) fun e he => by
            rcases List.mem_cons.mp he with rfl | he
            · exact hgt
            · exact lt_trans hgt (hc e he)
          exact absurd (hrd.symm.trans ((heq d.1).symm.trans this)) hnd
      have hcd : c = d := by
        refine Prod.ext key ?_
        rw [← hrc, ← hrd, heq, key]
      subst hcd
      have hwf : Memory.wf m := ⟨ht, fun e he => h.2 e (by simp [he])⟩
      have hwf' : Memory.wf m' := ⟨ht', fun e he => h'.2 e (by simp [he])⟩
      refine congrArg (c :: ·) (ih hwf hwf' fun a => ?_)
      have ha := heq a
      rw [show c = (c.1, c.2) from rfl, Memory.read_cons, Memory.read_cons] at ha
      by_cases hca : c.1 = a
      · subst hca
        rw [Memory.read_below hc, Memory.read_below hd]
      · simpa [hca] using ha

end Sys2Proof.Machine
end

