-- ==== Sys2Proof/Laws/ExecWrites.lean ====
section
/-! SUPPORT. Which instructions write the stack, memory, the frame buffer and the two timers, and what they write
there: one inversion lemma of `exec` for each. -/

namespace Sys2Proof.Machine

/-- A property of what an instruction does holds of every instruction, if it holds of entering Halted, of the effect of
each instruction whose meaning has more than one outcome, and of those that have one outcome only. -/
theorem exec_next_elim {P : Instr → State → State → Prop}
    (halts : ∀ i s kind info, P i s (haltedWith kind info s))
    (ret : ∀ s a, P .ret s (s.dropTop.jump a))
    (call : ∀ s nnn, s.stack.length ≠ s.cfg.stackDepth → P (.call nnn) s ((s.push s.pc).jump (addrOf nnn)))
    (drw : ∀ s x y n b f, P (.drw x y n) s ((s.setFb f).setV VF b).advance)
    (ldB : ∀ s x, s.I.toNat + 3 ≤ 0x1000 →
      P (.ldB x) s (s.storeBytes s.I.toNat (bcdBytes (s.getV x))).advance)
    (stRegs : ∀ s x, s.I.toNat + (x.val + 1) ≤ 0x1000 →
      P (.stRegs x) s ((s.storeBytes s.I.toNat (s.firstRegs x)).setI (s.indexAfter x)).advance)
    (ldRegs : ∀ s x, P (.ldRegs x) s ((s.loadRegs x s.I.toNat).setI (s.indexAfter x)).advance)
    (key : ∀ s x b, P (.ldVxK x) s (s.setV x b).advance)
    (wait : ∀ s x, P (.ldVxK x) s s)
    (plain : ∀ i s t, exec i s = .next t →
      (i ≠ .ret ∧ (∀ nnn, i ≠ .call nnn) ∧ (∀ x y n, i ≠ .drw x y n) ∧ (∀ x, i ≠ .ldB x) ∧
        (∀ x, i ≠ .stRegs x) ∧ (∀ x, i ≠ .ldRegs x) ∧ ∀ x, i ≠ .ldVxK x) → P i s t)
    {i : Instr} {s t : State} (h : exec i s = .next t) : P i s t := by
  have range : ∀ {n : Nat} {e : State}, checkRange n s e = .next t →
      (n = 0 ∨ s.I.toNat + n ≤ 0x1000 → P i s e) → P i s t := by
    intro n e hr he
    rcases checkRange_cases hr with ⟨rfl, hin⟩ | ⟨-, -, rfl⟩
    · exact he hin
    · exact halts i s _ _
  cases i with
  | ret =>
    simp only [exec, execRet] at h
    split at h <;> injection h with h <;> subst h
    · exact halts _ _ _ _
    · exact ret _ _
  | call nnn =>
    simp only [exec, execCall] at h
    by_cases hd : s.stack.length = s.cfg.stackDepth
    · rw [if_pos hd] at h
      injection h with h
      exact h ▸ halts _ _ _ _
    · rw [if_neg hd] at h
      injection h with h
      exact h ▸ call _ _ hd
  | drw x y n => exact range h fun _ => drw _ _ _ _ _ _
  | ldB x => exact range h fun hin => ldB _ _ (by omega)
  | stRegs x => exact range h fun hin => stRegs _ _ (by omega)
  | ldRegs x => exact range h fun _ => ldRegs _ _
  | ldVxK x =>
    simp only [exec, execLdVxK] at h
    split at h <;> injection h with h <;> subst h
    · exact key _ _ _
    · exact wait _ _
  | _ => exact plain _ s t h (by simp)

/-- The stack is written by 00EE, which drops the top, and by 2nnn, which pushes `pc` onto a stack that is not full. -/
theorem exec_stack {i : Instr} {s t : State} (h : exec i s = .next t) :
    t.stack = s.stack ∨ (i = .ret ∧ t.stack = s.stack.dropLast) ∨
      ((∃ nnn, i = .call nnn) ∧ t.stack = s.stack ++ [s.pc] ∧ s.stack.length ≠ s.cfg.stackDepth) := by
  refine exec_next_elim (P := fun i s t => t.stack = s.stack ∨ (i = .ret ∧ t.stack = s.stack.dropLast) ∨
    ((∃ nnn, i = .call nnn) ∧ t.stack = s.stack ++ [s.pc] ∧ s.stack.length ≠ s.cfg.stackDepth))
    ?_ ?_ ?_ ?_ ?_ ?_ ?_ ?_ ?_ ?_ h
  case refine_2 => intro s a; exact .inr (.inl ⟨rfl, rfl⟩)
  case refine_3 => intro s nnn hd; exact .inr (.inr ⟨⟨nnn, rfl⟩, rfl, hd⟩)
  case refine_10 =>
    intro i s t he hi
    cases i <;> first | simp at hi; done | (injection he with he; subst he; exact .inl rfl)
  all_goals intros; exact .inl rfl

/-- Memory is written by Fx33 and Fx55 only, within the addresses that exist. -/
theorem exec_mem {i : Instr} {s t : State} (h : exec i s = .next t) :
    t.mem = s.mem ∨
    (∃ x, i = .ldB x ∧ s.I.toNat + 3 ≤ 0x1000 ∧ t.mem = s.mem.store s.I.toNat (bcdBytes (s.getV x))) ∨
    (∃ x, i = .stRegs x ∧ s.I.toNat + (x.val + 1) ≤ 0x1000 ∧ t.mem = s.mem.store s.I.toNat (s.firstRegs x)) := by
  refine exec_next_elim (P := fun i s t => t.mem = s.mem ∨
    (∃ x, i = .ldB x ∧ s.I.toNat + 3 ≤ 0x1000 ∧ t.mem = s.mem.store s.I.toNat (bcdBytes (s.getV x))) ∨
    (∃ x, i = .stRegs x ∧ s.I.toNat + (x.val + 1) ≤ 0x1000 ∧ t.mem = s.mem.store s.I.toNat (s.firstRegs x)))
    ?_ ?_ ?_ ?_ ?_ ?_ ?_ ?_ ?_ ?_ h
  case refine_5 => intro s x hin; exact .inr (.inl ⟨x, rfl, hin, rfl⟩)
  case refine_6 => intro s x hin; exact .inr (.inr ⟨x, rfl, hin, rfl⟩)
  case refine_10 =>
    intro i s t he hi
    cases i <;> first | simp at hi; done | (injection he with he; subst he; exact .inl rfl)
  all_goals intros; exact .inl rfl

/-- The frame buffer is written by 00E0 and Dxyn only. -/
theorem exec_fb {i : Instr} {s t : State} (h : exec i s = .next t) :
    t.fb = s.fb ∨ i = .cls ∨ ∃ x y n, i = .drw x y n := by
  refine exec_next_elim (P := fun i s t => t.fb = s.fb ∨ i = .cls ∨ ∃ x y n, i = .drw x y n)
    ?_ ?_ ?_ ?_ ?_ ?_ ?_ ?_ ?_ ?_ h
  case refine_4 => intro s x y n b f; exact .inr (.inr ⟨x, y, n, rfl⟩)
  case refine_10 =>
    intro i s t he hi
    cases i <;> first
      | simp at hi; done
      | exact .inr (.inl rfl)
      | (injection he with he; subst he; exact .inl rfl)
  all_goals intros; exact .inl rfl

/-- The delay timer is written by Fx15 only, the sound timer by Fx18 only. -/
theorem exec_timers {i : Instr} {s t : State} (h : exec i s = .next t) :
    (t.DT = s.DT ∨ ∃ x, i = .ldDTVx x) ∧ (t.ST = s.ST ∨ ∃ x, i = .ldSTVx x) := by
  refine exec_next_elim (P := fun i s t => (t.DT = s.DT ∨ ∃ x, i = .ldDTVx x) ∧ (t.ST = s.ST ∨ ∃ x, i = .ldSTVx x))
    ?_ ?_ ?_ ?_ ?_ ?_ ?_ ?_ ?_ ?_ h
  case refine_10 =>
    intro i s t he hi
    cases i <;> first
      | simp at hi; done
      | (injection he with he; subst he
         first
           | exact ⟨.inl rfl, .inl rfl⟩
           | exact ⟨.inr ⟨_, rfl⟩, .inl rfl⟩
           | exact ⟨.inl rfl, .inr ⟨_, rfl⟩⟩)
  all_goals intros; exact ⟨.inl rfl, .inl rfl⟩

/-! ### The bytes that are stored -/

theorem bcdBytes_length (v : Byte) : (bcdBytes v).length = 3 := rfl

theorem firstRegs_length (s : State) (x : Reg) : (s.firstRegs x).length = x.val + 1 := by
  have := x.isLt
  simp [State.firstRegs]

/-- The r-th byte that Fx55 stores is Vr. -/
theorem firstRegs_getD (s : State) {x r : Reg} (h : r ≤ x) : (s.firstRegs x).getD r.val 0 = s.getV r := by
  have hr : r.val ≤ x.val := h
  have hx := x.isLt
  rw [List.getD_eq_getElem _ _ (by rw [firstRegs_length]; omega)]
  simp [State.firstRegs, State.getV]

end Sys2Proof.Machine
end

