-- ==== Sys2Proof/Laws/PerInstr.lean ====
section
/-! SUPPORT. One lemma per constructor of `Instr`. Family TableRow: the word of a well-formed instruction has the
fixed bits of the instruction's row in the opcode table (30_encoding.md R64). -/

namespace Sys2Proof.Laws.TableRow

/-- The word of the instruction selects the instruction's row. -/
def Statement (i : Instr) : Prop := i.wf = true → (opcodeTable[opRow i]).selects (encode i) = true

/-- A word of shape ADDR has the family nibble. -/
theorem addr_selects (t : BitVec 4) (nnn : Addr) :
    (⟨0xF000, t ++ 0#12⟩ : OpcodeRow).selects (encAddr t nnn) = true := by
  have h : (t ++ nnn) &&& (0xF#4 ++ 0x000#12) = t ++ 0#12 := by
    rw [BitVec.and_append, BitVec.and_zero]
    congr 1
    exact BitVec.and_allOnes
  exact beq_iff_eq.mpr h

/-- A word of shape REG_IMM has the family nibble. -/
theorem regImm_selects (t : BitVec 4) (x : Reg) (nn : Byte) :
    (⟨0xF000, t ++ 0#4 ++ 0#8⟩ : OpcodeRow).selects (encRegImm t x nn) = true := by
  have h : (t ++ nib x ++ nn) &&& (0xF#4 ++ 0x0#4 ++ 0x00#8) = t ++ 0#4 ++ 0#8 := by
    rw [BitVec.and_append, BitVec.and_append, BitVec.and_zero, BitVec.and_zero]
    congr 2
    exact BitVec.and_allOnes
  exact beq_iff_eq.mpr h

/-- A word of shape REG has the family nibble and the low byte. -/
theorem reg_selects (t : BitVec 4) (x : Reg) (nn : Byte) :
    (⟨0xF0FF, t ++ 0#4 ++ nn⟩ : OpcodeRow).selects (encRegImm t x nn) = true := by
  have h : (t ++ nib x ++ nn) &&& (0xF#4 ++ 0x0#4 ++ 0xFF#8) = t ++ 0#4 ++ nn := by
    rw [BitVec.and_append, BitVec.and_append, BitVec.and_zero,
      show t &&& 0xF#4 = t from BitVec.and_allOnes, show nn &&& 0xFF#8 = nn from BitVec.and_allOnes]
  exact beq_iff_eq.mpr h

/-- A word of shape REG_REG has the family nibble and the low nibble. -/
theorem regReg_selects (t : BitVec 4) (x y : Reg) (n : BitVec 4) :
    (⟨0xF00F, t ++ 0#4 ++ 0#4 ++ n⟩ : OpcodeRow).selects (encRegRegN t x y n) = true := by
  have h : (t ++ nib x ++ nib y ++ n) &&& (0xF#4 ++ 0x0#4 ++ 0x0#4 ++ 0xF#4) = t ++ 0#4 ++ 0#4 ++ n := by
    rw [BitVec.and_append, BitVec.and_append, BitVec.and_append, BitVec.and_zero, BitVec.and_zero,
      show t &&& 0xF#4 = t from BitVec.and_allOnes, show n &&& 0xF#4 = n from BitVec.and_allOnes]
  exact beq_iff_eq.mpr h

/-- A word of shape REG_REG_N has the family nibble. -/
theorem regRegN_selects (t : BitVec 4) (x y : Reg) (n : BitVec 4) :
    (⟨0xF000, t ++ 0#4 ++ 0#4 ++ 0#4⟩ : OpcodeRow).selects (encRegRegN t x y n) = true := by
  have h : (t ++ nib x ++ nib y ++ n) &&& (0xF#4 ++ 0x0#4 ++ 0x0#4 ++ 0x0#4) = t ++ 0#4 ++ 0#4 ++ 0#4 := by
    rw [BitVec.and_append, BitVec.and_append, BitVec.and_append, BitVec.and_zero, BitVec.and_zero,
      BitVec.and_zero, show t &&& 0xF#4 = t from BitVec.and_allOnes]
  exact beq_iff_eq.mpr h

theorem cls : Statement .cls := fun _ => by decide
theorem ret : Statement .ret := fun _ => by decide
theorem sys (nnn : Addr) : Statement (.sys nnn) := fun _ => addr_selects 0x0 nnn
theorem jp (nnn : Addr) : Statement (.jp nnn) := fun _ => addr_selects 0x1 nnn
theorem call (nnn : Addr) : Statement (.call nnn) := fun _ => addr_selects 0x2 nnn
theorem seImm (x : Reg) (nn : Byte) : Statement (.seImm x nn) := fun _ => regImm_selects 0x3 x nn
theorem sneImm (x : Reg) (nn : Byte) : Statement (.sneImm x nn) := fun _ => regImm_selects 0x4 x nn
theorem seReg (x y : Reg) : Statement (.seReg x y) := fun _ => regReg_selects 0x5 x y 0x0
theorem ldImm (x : Reg) (nn : Byte) : Statement (.ldImm x nn) := fun _ => regImm_selects 0x6 x nn
theorem addImm (x : Reg) (nn : Byte) : Statement (.addImm x nn) := fun _ => regImm_selects 0x7 x nn
theorem ldReg (x y : Reg) : Statement (.ldReg x y) := fun _ => regReg_selects 0x8 x y 0x0
theorem orReg (x y : Reg) : Statement (.orReg x y) := fun _ => regReg_selects 0x8 x y 0x1
theorem andReg (x y : Reg) : Statement (.andReg x y) := fun _ => regReg_selects 0x8 x y 0x2
theorem xorReg (x y : Reg) : Statement (.xorReg x y) := fun _ => regReg_selects 0x8 x y 0x3
theorem addReg (x y : Reg) : Statement (.addReg x y) := fun _ => regReg_selects 0x8 x y 0x4
theorem sub (x y : Reg) : Statement (.sub x y) := fun _ => regReg_selects 0x8 x y 0x5
theorem shr (x y : Reg) : Statement (.shr x y) := fun _ => regReg_selects 0x8 x y 0x6
theorem subn (x y : Reg) : Statement (.subn x y) := fun _ => regReg_selects 0x8 x y 0x7
theorem shl (x y : Reg) : Statement (.shl x y) := fun _ => regReg_selects 0x8 x y 0xE
theorem sneReg (x y : Reg) : Statement (.sneReg x y) := fun _ => regReg_selects 0x9 x y 0x0
theorem ldI (nnn : Addr) : Statement (.ldI nnn) := fun _ => addr_selects 0xA nnn
theorem jpV0 (nnn : Addr) : Statement (.jpV0 nnn) := fun _ => addr_selects 0xB nnn
theorem rnd (x : Reg) (nn : Byte) : Statement (.rnd x nn) := fun _ => regImm_selects 0xC x nn
theorem drw (x y : Reg) (n : Nibble) : Statement (.drw x y n) := fun _ => regRegN_selects 0xD x y (nib n)
theorem skp (x : Reg) : Statement (.skp x) := fun _ => reg_selects 0xE x 0x9E
theorem sknp (x : Reg) : Statement (.sknp x) := fun _ => reg_selects 0xE x 0xA1
theorem ldVxDT (x : Reg) : Statement (.ldVxDT x) := fun _ => reg_selects 0xF x 0x07
theorem ldVxK (x : Reg) : Statement (.ldVxK x) := fun _ => reg_selects 0xF x 0x0A
theorem ldDTVx (x : Reg) : Statement (.ldDTVx x) := fun _ => reg_selects 0xF x 0x15
theorem ldSTVx (x : Reg) : Statement (.ldSTVx x) := fun _ => reg_selects 0xF x 0x18
theorem addI (x : Reg) : Statement (.addI x) := fun _ => reg_selects 0xF x 0x1E
theorem ldF (x : Reg) : Statement (.ldF x) := fun _ => reg_selects 0xF x 0x29
theorem ldB (x : Reg) : Statement (.ldB x) := fun _ => reg_selects 0xF x 0x33
theorem stRegs (x : Reg) : Statement (.stRegs x) := fun _ => reg_selects 0xF x 0x55
theorem ldRegs (x : Reg) : Statement (.ldRegs x) := fun _ => reg_selects 0xF x 0x65

end Sys2Proof.Laws.TableRow
end

