-- ==== Sys2Proof/Tests/Slice0.lean ====
section
/-! SUPPORT. Tests against the spec: the decoder on words written out from the table of 30_encoding.md R64, one-step
vectors of 95_test_vectors.md (the id of each is in its docstring), and a witness of the hypotheses of every
obligation that has some. Every expected result is the spec's. -/

namespace Sys2Proof.Tests

open Sys2Proof Sys2Proof.Machine

/-! ### Well-formedness and decoding -/

/-- R64: the word of SYS is never that of CLS or RET. -/
theorem test_wf_refuses_cls_as_sys : Instr.wf (.sys 0x0E0) = false := by decide
theorem test_wf_refuses_ret_as_sys : Instr.wf (.sys 0x0EE) = false := by decide
theorem test_wf_accepts_sys : Instr.wf (.sys 0x0E1) = true := by decide

theorem test_decode_family0 : decodeOp 0x00E0 = some .cls ∧ decodeOp 0x00EE = some .ret ∧
    decodeOp 0x0000 = some (.sys 0x000) ∧ decodeOp 0x0FFF = some (.sys 0xFFF) := by decide
theorem test_decode_jp : decodeOp 0x1ABC = some (.jp 0xABC) := by decide
theorem test_decode_call : decodeOp 0x2300 = some (.call 0x300) := by decide
theorem test_decode_skips : decodeOp 0x332A = some (.seImm 3 0x2A) ∧ decodeOp 0x4E2A = some (.sneImm 0xE 0x2A) ∧
    decodeOp 0x5120 = some (.seReg 1 2) ∧ decodeOp 0x9AB0 = some (.sneReg 0xA 0xB) := by decide
theorem test_decode_immediates : decodeOp 0x6A7F = some (.ldImm 0xA 0x7F) ∧
    decodeOp 0x7102 = some (.addImm 1 0x02) := by decide
theorem test_decode_family8 : decodeOp 0x8120 = some (.ldReg 1 2) ∧ decodeOp 0x8121 = some (.orReg 1 2) ∧
    decodeOp 0x8122 = some (.andReg 1 2) ∧ decodeOp 0x8123 = some (.xorReg 1 2) ∧
    decodeOp 0x8124 = some (.addReg 1 2) ∧ decodeOp 0x8125 = some (.sub 1 2) ∧ decodeOp 0x8126 = some (.shr 1 2) ∧
    decodeOp 0x8127 = some (.subn 1 2) ∧ decodeOp 0x812E = some (.shl 1 2) := by decide
theorem test_decode_index : decodeOp 0xA2F0 = some (.ldI 0x2F0) ∧ decodeOp 0xB234 = some (.jpV0 0x234) ∧
    decodeOp 0xC30F = some (.rnd 3 0x0F) := by decide
theorem test_decode_drw : decodeOp 0xD12F = some (.drw 1 2 15) := by decide
theorem test_decode_keys : decodeOp 0xE19E = some (.skp 1) ∧ decodeOp 0xE0A1 = some (.sknp 0) ∧
    decodeOp 0xF30A = some (.ldVxK 3) := by decide
theorem test_decode_familyF : decodeOp 0xF207 = some (.ldVxDT 2) ∧ decodeOp 0xF215 = some (.ldDTVx 2) ∧
    decodeOp 0xF218 = some (.ldSTVx 2) ∧ decodeOp 0xF11E = some (.addI 1) ∧ decodeOp 0xF429 = some (.ldF 4) ∧
    decodeOp 0xF533 = some (.ldB 5) ∧ decodeOp 0xF255 = some (.stRegs 2) ∧ decodeOp 0xFF65 = some (.ldRegs 15) := by
  decide
/-- V-E8, V-E9, V-E11, V-E13, V-E15, V-E18, V-E19, V-E20: one for each clause of R66. -/
theorem test_decode_unknown : [0x5121, 0x9001, 0x8128, 0x812F, 0xE19F, 0xF11F, 0xF000, 0xFFFF].all
    (fun w => (decodeOp (BitVec.ofNat 16 w)).isNone) = true := by decide
/-- V-E24: the byte at the lower address is the high byte. -/
theorem test_decode_bytes : decode [0x12, 0x34, 0x56] = .ok (.jp 0x234, [0x56]) := by decide
theorem test_decode_truncated : decode [0x12] = .error .truncated := by decide

/-! ### The state before a one-step vector, and what is read after it -/

/-- After construction with CFG0 and a word at 0x200, with some registers set and `Cycle(t = 0, dt = 0, rnd = 0)` next
(95_test_vectors.md section 0; the glyph bytes are left out of memory). -/
def before (word : Word) (regs : List (Reg × Byte)) : State :=
  { State.reset with
    V := regs.foldl (fun v r => v.set r.1 r.2) (Vector.replicate 16 0)
    mem := Memory.store [] 0x200 (wordBytes word)
    env := { Env.reset with pending := [.cycle ⟨0, 0, 0⟩] } }

/-- What `f` reads of the state after one step. -/
def after {α : Type} (s : State) (f : State → α) : Option α :=
  match step s with
  | .next t => some (f t)
  | .fault _ => none
  | .refused _ => none

/-- V1, VF, `pc` and `acc`. -/
def v1f (t : State) : Byte × Byte × Word × Nat := (t.getV 1, t.getV VF, t.pc, t.acc)

/-- The status and `pc`. -/
def stop (t : State) : Status × Word := (t.status, t.pc)

/-- The bytes from `a` on. -/
def bytesAt (a n : Nat) (t : State) : List Byte := t.mem.load a n

/-- The bytes stored before a vector. -/
def withBytes (a : Nat) (bs : List Byte) (s : State) : State := s.storeBytes a bs

/-! ### Families 0, 1, 2 -/

/-- V-Z3. -/
theorem test_sys : after (before 0x0FFF []) (fun t => (t.pc, t.stack, t.acc)) = some (0x202, [], 100) := by decide
/-- V-Z4. -/
theorem test_cls : after { before 0x00E0 [(15, 1)] with
      fb := (Frame.blank.set 0 (Frame.blank[0].set 0 true)).set 31 (Frame.blank[31].set 63 true) }
    (fun t => (t.fb.cell 0, t.fb.cell 2047, t.getV VF, t.frameReady)) = some (false, false, 1, false) := by decide
/-- V-Z6 at 0x200. -/
theorem test_ret : after { before 0x00EE [] with stack := [0x204] } (fun t => (t.stack, t.pc)) = some ([], 0x206) := by
  decide
/-- V-Z7. -/
theorem test_ret_underflow : after (before 0x00EE []) (fun t => (stop t, t.acc)) =
    some ((.halted ⟨.stackUnderflow, 0x200⟩, 0x200), 0) := by decide
/-- V-Z10. -/
theorem test_jp : after (before 0x1FFF []) (fun t => t.pc) = some 0xFFF := by decide
/-- V-Z5 at 0x200. -/
theorem test_call : after (before 0x2300 []) (fun t => (t.stack, t.pc)) = some ([0x200], 0x300) := by decide
/-- V-Z9 at 0x200. -/
theorem test_call_overflow : after { before 0x2300 [] with stack := List.replicate 16 0x204 }
    (fun t => (stop t, t.stack.length)) = some ((.halted ⟨.stackOverflow, 0x200⟩, 0x200), 16) := by decide

/-! ### Skips -/

/-- V-K1, V-K2. -/
theorem test_seImm : after (before 0x332A [(3, 0x2A)]) (·.pc) = some 0x204 ∧
    after (before 0x332A [(3, 0x2B)]) (·.pc) = some 0x202 := by decide
/-- V-K3, V-K4. -/
theorem test_sneImm : after (before 0x432A [(3, 0x2A)]) (·.pc) = some 0x202 ∧
    after (before 0x432A []) (·.pc) = some 0x204 := by decide
/-- V-K5, V-K6. -/
theorem test_seReg : after (before 0x5120 [(1, 7), (2, 7)]) (·.pc) = some 0x204 ∧
    after (before 0x5120 [(1, 7), (2, 8)]) (·.pc) = some 0x202 := by decide
/-- V-K8, V-K9. -/
theorem test_sneReg : after (before 0x9120 [(1, 7), (2, 8)]) (·.pc) = some 0x204 ∧
    after (before 0x9120 [(1, 7), (2, 7)]) (·.pc) = some 0x202 := by decide

/-! ### Load and arithmetic -/

/-- V-A2. -/
theorem test_ldImm : after (before 0x6F01 []) v1f = some (0, 1, 0x202, 100) := by decide
/-- V-A3. -/
theorem test_addImm : after (before 0x7102 [(1, 0xFF)]) v1f = some (1, 0, 0x202, 100) := by decide
/-- V-A7. -/
theorem test_ldReg : after (before 0x8120 [(2, 0x33)]) v1f = some (0x33, 0, 0x202, 100) := by decide
/-- V-A8, V-A9 (S6). -/
theorem test_or : after (before 0x8121 [(1, 0xF0), (2, 0x0F), (15, 1)]) v1f = some (0xFF, 1, 0x202, 100) := by decide
theorem test_or_quirk : after { before 0x8121 [(1, 0xF0), (2, 0x0F), (15, 1)] with
    cfg := { Config.cfg0 with logicQuirk := true } } v1f = some (0xFF, 0, 0x202, 100) := by decide
/-- V-A10. -/
theorem test_and : after (before 0x8122 [(1, 0xF3), (2, 0x3F), (15, 1)]) v1f = some (0x33, 1, 0x202, 100) := by decide
/-- V-A12, V-A15. -/
theorem test_xor : after (before 0x8123 [(1, 0xFF), (2, 0x0F), (15, 1)]) v1f = some (0xF0, 1, 0x202, 100) := by decide
/-- V-A15: with x = 0xF and the quirk the result is lost. -/
theorem test_or_flag_destination : after { before 0x8F21 [(2, 0x0F), (15, 0xF0)] with
    cfg := { Config.cfg0 with logicQuirk := true } } v1f = some (0, 0, 0x202, 100) := by decide
/-- V-A22, V-A26. -/
theorem test_add : after (before 0x8124 [(1, 0x80), (2, 0x80)]) v1f = some (0, 1, 0x202, 100) := by decide
theorem test_add_flag_destination : after (before 0x8F24 [(15, 0x10), (2, 0x20)]) v1f = some (0, 0, 0x202, 100) := by
  decide
/-- V-A30, V-A32. -/
theorem test_sub : after (before 0x8125 [(1, 5), (2, 7)]) v1f = some (0xFE, 0, 0x202, 100) := by decide
theorem test_sub_equal : after (before 0x8125 [(1, 7), (2, 7)]) v1f = some (0, 1, 0x202, 100) := by decide
/-- V-A38, V-A42. -/
theorem test_subn : after (before 0x8127 [(1, 5), (2, 7)]) v1f = some (2, 1, 0x202, 100) := by decide
theorem test_subn_flag_destination : after (before 0x8F27 [(15, 9), (2, 7)]) v1f = some (0, 0, 0x202, 100) := by decide
/-- V-A43 (S1, the source's own numbers), V-A51. -/
theorem test_shr : after (before 0x8126 [(1, 0), (2, 3)]) (fun t => (v1f t, t.getV 2)) =
    some ((1, 1, 0x202, 100), 3) := by decide
theorem test_shr_flag_source : after (before 0x81F6 [(1, 4), (15, 3)]) v1f = some (1, 1, 0x202, 100) := by decide
/-- V-A54, V-A58. -/
theorem test_shl_quirk : after { before 0x812E [(1, 0), (2, 0x81)] with
    cfg := { Config.cfg0 with shiftQuirk := true } } v1f = some (0, 0, 0x202, 100) := by decide
theorem test_shl_flag_destination : after (before 0x8F2E [(15, 0x81), (2, 0x80)]) v1f = some (0, 2, 0x202, 100) := by
  decide

/-! ### Index, jump, random -/

/-- V-I2. -/
theorem test_ldI : after (before 0xAFFF []) (fun t => (t.I, t.pc)) = some (0xFFF, 0x202) := by decide
/-- V-I8, V-I4. -/
theorem test_jpV0 : after (before 0xBFFF [(0, 0xFF), (15, 0xFF)]) (·.pc) = some 0x10FE := by decide
theorem test_jpV0_quirk : after { before 0xB234 [(0, 4), (2, 0x10)] with
    cfg := { Config.cfg0 with jumpOffsetQuirk := true } } (·.pc) = some 0x244 := by decide
/-- V-I9. -/
theorem test_rnd : after { before 0xC30F [] with env := { Env.reset with pending := [.cycle ⟨0, 0, 0xA7⟩] } }
    (fun t => (t.getV 3, t.pc)) = some (7, 0x202) := by decide

/-! ### Draw -/

/-- The sixteen cells of the row that begins at cell j. -/
def cells16 (j : Fin 2048) (f : Frame) : List Bool := (List.range 16).map fun k => f.cell (j + Fin.ofNat 2048 k)

/-- V-D16: on are (8,2) and (15,2), that is cells 136 and 143. -/
theorem test_drw_leftmost : after (withBytes 0x300 [0x81] { before 0xD011 [(0, 8), (1, 2)] with I := 0x300 })
    (fun t => (cells16 128 t.fb, t.getV VF)) =
    some ([false, false, false, false, false, false, false, false,
      true, false, false, false, false, false, false, true], 0) := by decide
/-- V-D8: nothing is drawn when a later row is out of range. -/
theorem test_drw_fault : after (withBytes 0xFFE [0xFF] { before 0xD013 [(15, 1)] with I := 0xFFE })
    (fun t => (stop t, cells16 0 t.fb, t.getV VF)) =
    some ((.halted ⟨.memoryOutOfBounds, 0x1000⟩, 0x200), List.replicate 16 false, 1) := by decide

/-! ### Keys -/

/-- V-P3. -/
theorem test_skp : after { before 0xE29E [(2, 0x1A)] with cur := (Vector.replicate 16 false).set 10 true } (·.pc) =
    some 0x204 := by decide
/-- V-P4. -/
theorem test_sknp : after { before 0xE2A1 [(2, 5)] with cur := (Vector.replicate 16 false).set 5 true } (·.pc) =
    some 0x202 := by decide
/-- The state of V-P9 and V-P10 before the cycle: key 7 was released at 5000. -/
def released7 (t : Nat) : State :=
  { (before 0xF30A []).releaseKey 7 5000 with env := { Env.reset with pending := [.cycle ⟨t, 0, 0⟩] } }
/-- V-P9: the last instant of the window. -/
theorem test_ldVxK : after (released7 34999) (fun t => (t.getV 3, t.pc)) = some (7, 0x202) := by decide
/-- V-P10: the window excludes its end; the waiting cycle is charged (V-P19). -/
theorem test_ldVxK_waits : after (released7 35000) (fun t => (t.getV 3, t.pc, t.acc)) = some (0, 0x200, 100) := by
  decide

/-! ### Timers, index, memory -/

/-- V-F1. -/
theorem test_ldVxDT : after { before 0xF107 [] with DT := 0x3C } v1f = some (0x3C, 0, 0x202, 100) := by decide
/-- V-F2. -/
theorem test_ldDTVx : after (before 0xF215 [(2, 0x3C)]) (·.DT) = some 0x3C := by decide
/-- V-F3. -/
theorem test_ldSTVx : after (before 0xF218 [(2, 2)]) (fun t => (t.ST, t.buzzerActive)) = some (2, true) := by decide
/-- V-F7. -/
theorem test_addI : after { before 0xF11E [(1, 2), (15, 7)] with I := 0xFFFF } (fun t => (t.I, t.getV VF)) =
    some (1, 7) := by decide
/-- V-F11. -/
theorem test_ldF : after (before 0xF429 [(4, 0x1A)]) (·.I) = some 0x082 := by decide
/-- V-F22. -/
theorem test_ldB : after { before 0xF533 [(5, 0xFF)] with I := 0xFFD } (bytesAt 0xFFD 3) = some [2, 5, 5] := by decide
/-- V-F23. -/
theorem test_ldB_fault : after { before 0xF533 [(5, 0xFF)] with I := 0xFFE } (fun t => (stop t, bytesAt 0xFFE 2 t)) =
    some ((.halted ⟨.memoryOutOfBounds, 0x1000⟩, 0x200), [0, 0]) := by decide
/-- V-F25. -/
theorem test_stRegs : after { before 0xF255 [(0, 1), (1, 2), (2, 3), (3, 4)] with I := 0x400 }
    (fun t => (bytesAt 0x400 4 t, t.I)) = some ([1, 2, 3, 0], 0x400) := by decide
/-- V-F30 with fewer registers: the index may leave memory. -/
theorem test_stRegs_quirk : after { before 0xF055 [(0, 0xAB)] with
    I := 0xFFF, cfg := { Config.cfg0 with memoryQuirk := true } } (fun t => (bytesAt 0xFFF 1 t, t.I)) =
    some ([0xAB], 0x1000) := by decide
/-- V-F32. -/
theorem test_ldRegs : after (withBytes 0x400 [9, 8, 7, 6] { before 0xF265 [(3, 0x77)] with I := 0x400 })
    (fun t => (t.getV 0, t.getV 1, t.getV 2, t.getV 3, t.I)) = some (9, 8, 7, 0x77, 0x400) := by decide
/-- V-F37. -/
theorem test_ldRegs_quirk : after (withBytes 0xFFF [0x99] { before 0xF065 [] with
    I := 0xFFF, cfg := { Config.cfg0 with memoryQuirk := true } }) (fun t => (t.getV 0, t.I)) =
    some (0x99, 0x1000) := by decide

/-! ### The cycle, the timers, construction and reset -/

/-- V-C2: deferred. -/
theorem test_deferred : after { before 0x6001 [] with acc := 16568 } (fun t => (t.getV 0, t.pc, t.acc)) =
    some (0, 0x200, 16568) := by decide
/-- V-C3: executed, then a frame boundary. -/
theorem test_boundary : after { before 0x6001 [] with
      acc := 16567, DT := 3, ST := 1, env := { Env.reset with pending := [.cycle ⟨0, 1, 0⟩] } }
    (fun t => (t.getV 0, t.pc, t.DT, t.ST, t.frameReady, t.acc)) = some (1, 0x202, 2, 0, true, 0) := by decide
/-- V-C11: an unknown word is not deferred and advances nothing. -/
theorem test_unknown_not_deferred : after { before 0xFFFF [] with acc := 16667 } (fun t => (stop t, t.acc)) =
    some ((.halted ⟨.unknownOpcode, 0xFFFF⟩, 0x200), 16667) := by decide
/-- V-C13: the fetch fault. -/
theorem test_fetch_fault : after { before 0x6001 [] with pc := 0xFFF, acc := 16667 } (fun t => (stop t, t.acc)) =
    some ((.halted ⟨.memoryOutOfBounds, 0xFFF⟩, 0xFFF), 16667) := by decide
/-- V-R1: three program bytes, the rest of memory 0, the glyphs at 0x050. -/
theorem test_construct : after { before 0 [] with
      env := { Env.reset with pending := [.construct [0x00, 0xE0, 0x12] Config.cfg0] } }
    (fun t => (bytesAt 0x200 4 t, bytesAt 0x04F 2 t, bytesAt 0x09F 2 t, t.pc)) =
    some ([0x00, 0xE0, 0x12, 0x00], [0x00, 0xF0], [0x80, 0x00], 0x200) := by decide +kernel
/-- V-R2: a font base of 0x1B1 is refused. -/
theorem test_construct_refused : step { before 0 [] with
      env := { Env.reset with pending := [.construct [] { Config.cfg0 with fontBase := 0x1B1 }] } } =
    .refused .illegalConstruct := by rfl
/-- V-R3: memory survives a reset, the rest does not. -/
theorem test_reset : after (withBytes 0x300 [0x55] { before 0 [(3, 7)] with
      I := 0x1234, stack := [0x204], pc := 0x3AB, status := .halted ⟨.unknownOpcode, 0xFFFF⟩,
      env := { Env.reset with pending := [.reset] } })
    (fun t => ((t.getV 3, t.I, t.stack), (stop t, bytesAt 0x300 1 t))) =
    some ((0, 0, []), ((.running, 0x200), [0x55])) := by decide
/-- The memory of `State.reset` is in canonical form. -/
theorem test_reset_memory_wf : cfg0Memory.wf := by decide
/-- The host's interface: the word put at `pc` is what the first step runs. -/
theorem test_withFetchWord : after (State.reset.withFetchWord 16 0x6A7F) (fun t => (t.getV 0xA, t.pc)) =
    some (0x7F, 0x202) := by decide
theorem test_decodeTableWord : decodeTableWord 16 0xD12F = some (.drw 1 2 15) := by decide

/-! ### Witnesses: for every obligation with hypotheses, a concrete case that meets all of them together -/

/-- The record of the outside world before a one-step vector. -/
def cycleNext : Env := { Env.reset with pending := [.cycle ⟨0, 0, 0⟩] }

/-- The state in which the cycle of a one-step vector runs. -/
def begun (s : State) : State := s.latch ⟨0, 0, 0⟩ []

theorem begins {s : State} (h : s.env = cycleNext) : CycleBegins s (begun s) := by
  refine .inr ⟨⟨0, 0, 0⟩, [], by rw [h]; rfl, ?_, rfl⟩
  rw [State.earliestCycle, h]
  decide

/-- A state in which a given transaction comes next. -/
def facing (tx : Transaction) (s : State) : State := { s with env := { Env.reset with pending := [tx] } }

/-- Boundary: the SYS word next to that of CLS. -/
theorem witness_DecodeOfEncode : Instr.wf (.sys 0x0E1) = true ∧ Instr.wf (.drw 15 15 15) = true := by decide

theorem witness_EncodeOfDecode : decodeOp 0x8FFE = some (.shl 15 15) := by decide

/-- Each clause: a decoded word, an unknown word, a word that two rows of family 0 select. -/
theorem witness_DecodeFollowsTheOpcodeTable : decodeOp 0xFF65 = some (.ldRegs 15) ∧ decodeOp 0x8128 = none ∧
    (opcodeTable[(1 : Fin 35)]).selects 0x00EE = true ∧ (opcodeTable[(2 : Fin 35)]).selects 0x00EE = true := by
  decide

/-- Both clauses, at the boundary: the cost overruns the budget by one (V-C2), or just fits (V-C1); it runs on. -/
theorem witness_StepRuns_deferred : let s := { before 0x6001 [] with acc := 16568 }
    CycleBegins s (begun s) ∧ Fetches (begun s) (.ldImm 0 1) ∧
      (begun s).cfg.frameBudget < (begun s).acc + (begun s).costOf (.ldImm 0 1) :=
  ⟨begins rfl, ⟨rfl, by decide, by decide⟩, by decide⟩

theorem witness_StepRuns_runs : let s := { before 0x6001 [] with acc := 16567 }
    CycleBegins s (begun s) ∧ Fetches (begun s) (.ldImm 0 1) ∧
      (begun s).acc + (begun s).costOf (.ldImm 0 1) ≤ (begun s).cfg.frameBudget ∧
      ∃ t, exec (.ldImm 0 1) (begun s) = .next t ∧ t.status = .running :=
  ⟨begins rfl, ⟨rfl, by decide, by decide⟩, by decide, _, rfl, rfl⟩

theorem witness_StepRuns_faults : let s := before 0x00EE []
    CycleBegins s (begun s) ∧ Fetches (begun s) .ret ∧
      (begun s).acc + (begun s).costOf .ret ≤ (begun s).cfg.frameBudget ∧
      ∃ t f, exec .ret (begun s) = .next t ∧ t.status = .halted f :=
  ⟨begins rfl, ⟨rfl, by decide, by decide⟩, by decide, _, _, rfl, rfl⟩

theorem witness_WithFetchWord : Instr.wf (.drw 1 2 15) = true ∧
    State.reset.cfg.cost[opRow (.drw 1 2 15)] ≤ State.reset.cfg.frameBudget := by decide

theorem witness_HaltedBlockIdles : let s := { before 0 [] with status := .halted ⟨.unknownOpcode, 0xFFFF⟩ }
    CycleBegins s (begun s) ∧ s.status = .halted ⟨.unknownOpcode, 0xFFFF⟩ := ⟨begins rfl, rfl⟩

/-- V-C2, without a boundary (`dt` is 0). -/
theorem witness_DeferredCycle : let s := { before 0x6001 [] with acc := 16568 }
    CycleBegins s (begun s) ∧ Fetches (begun s) (.ldImm 0 1) ∧
      (begun s).cfg.frameBudget < (begun s).acc + (begun s).costOf (.ldImm 0 1) ∧
      (begun s).acc + (begun s).env.inp.dt ≤ (begun s).cfg.frameBudget :=
  ⟨begins rfl, ⟨rfl, by decide, by decide⟩, by decide, by decide⟩

/-- Without a boundary, at the boundary value (V-C1). -/
theorem witness_FrameBoundary_within : let s := { before 0x6001 [] with acc := 16567 }
    ∃ u, CycleBegins s (begun s) ∧ AfterInstruction (begun s) (.ldImm 0 1) u 100 ∧
      u.acc + 100 + (begun s).env.inp.dt ≤ (begun s).cfg.frameBudget :=
  ⟨_, begins rfl, ⟨⟨rfl, by decide, by decide⟩, .inr ⟨by decide, rfl, rfl, rfl⟩⟩, by decide⟩

/-- One µs past the budget, with `ST` at 1 (V-C3). -/
theorem witness_FrameBoundary_past : let s := facing (.cycle ⟨0, 1, 0⟩) { before 0x6001 [] with acc := 16567, ST := 1 }
    ∃ s1 u, CycleBegins s s1 ∧ AfterInstruction s1 (.ldImm 0 1) u 100 ∧
      s1.cfg.frameBudget < u.acc + 100 + s1.env.inp.dt ∧ u.ST = 1 :=
  ⟨_, _, .inr ⟨⟨0, 1, 0⟩, [], rfl, by decide, rfl⟩,
    ⟨⟨rfl, by decide, by decide⟩, .inr ⟨by decide, rfl, rfl, rfl⟩⟩, by decide, rfl⟩

/-- V-C4 in its third cycle: deferred, charged nothing, and past the budget. -/
theorem witness_FrameBoundary_deferred : let s := facing (.cycle ⟨0, 30, 0⟩) { before 0x6001 [] with acc := 16660 }
    ∃ s1, CycleBegins s s1 ∧ AfterInstruction s1 (.ldImm 0 1) s1 0 ∧
      s1.cfg.frameBudget < s1.acc + 0 + s1.env.inp.dt :=
  ⟨_, .inr ⟨⟨0, 30, 0⟩, [], rfl, by decide, rfl⟩,
    ⟨⟨rfl, by decide, by decide⟩, .inl ⟨by decide, rfl, rfl⟩⟩, by decide⟩

theorem witness_TimersChange : NoReinitialisation (before 0xF215 [(2, 0x3C)]) ∧
    ∃ t, step (before 0xF215 [(2, 0x3C)]) = .next t :=
  ⟨⟨fun _ _ _ h => by simp [before] at h, fun _ h => by simp [before] at h⟩, _, rfl⟩

/-- The first address with no whole word behind it. -/
theorem witness_FetchPastMemory : let s := { before 0 [] with pc := 0xFFF }
    CycleBegins s (begun s) ∧ s.status = .running ∧ 0xFFE < s.pc.toNat := ⟨begins rfl, rfl, by decide⟩

/-- The last address with a whole word. -/
theorem witness_UnknownOpcode : let s := withBytes 0xFFE [0xFF, 0xFF] { before 0 [] with pc := 0xFFE }
    CycleBegins s (begun s) ∧ (begun s).status = .running ∧ (begun s).pc.toNat ≤ 0xFFE ∧
      decodeOp (begun s).fetchWord = none := ⟨begins rfl, rfl, by decide, by decide⟩

theorem witness_FaultsArePrecise : let s := before 0x00EE []
    CycleBegins s (begun s) ∧ s.status = .running ∧
      ∃ t, step s = .next t ∧ t.status = .halted ⟨.stackUnderflow, 0x200⟩ := ⟨begins rfl, rfl, _, rfl, rfl⟩

theorem witness_EveryFault_fetch : let s := { before 0 [] with pc := 0xFFF }
    CycleBegins s (begun s) ∧ s.status = .running ∧
      ∃ t, step s = .next t ∧ t.status = .halted ⟨.memoryOutOfBounds, 0xFFF⟩ := ⟨begins rfl, rfl, _, rfl, rfl⟩

theorem witness_EveryFault_data : let s := { before 0xF533 [] with I := 0xFFE }
    CycleBegins s (begun s) ∧ s.status = .running ∧
      ∃ t, step s = .next t ∧ t.status = .halted ⟨.memoryOutOfBounds, 0x1000⟩ := ⟨begins rfl, rfl, _, rfl, rfl⟩

/-- A state that keeps the invariant and steps. -/
theorem witness_Invariant : (before 0x2300 []).Inv ∧ ∃ t, step (before 0x2300 []) = .next t :=
  ⟨⟨by decide, by decide, by decide, fun _ h => by simp [before, State.reset] at h, by decide, by decide, rfl⟩,
    _, rfl⟩

theorem witness_OnlyConstruct : (∀ program c rest, (before 0 []).env.pending ≠ .construct program c :: rest) ∧
    ∃ t, step (before 0 []) = .next t := ⟨fun _ _ _ h => by simp [before] at h, _, rfl⟩

/-- A byte that differs after a store at the top of memory. -/
theorem witness_OnlyStores : let s := { before 0xF055 [(0, 0xAB)] with I := 0xFFF }
    (∀ program c rest, s.env.pending ≠ .construct program c :: rest) ∧
      ∃ t, step s = .next t ∧ t.readByte 0xFFF ≠ s.readByte 0xFFF :=
  ⟨fun _ _ _ h => by simp [before] at h, _, rfl, by decide⟩

theorem witness_WhatACycleMayWrite : let s := before 0x00E0 []
    CycleBegins s (begun s) ∧ ∃ t, step s = .next t := ⟨begins rfl, _, rfl⟩

theorem witness_Unobservable : SameToProgram (before 0x6001 []) { before 0x6001 [] with ST := 5, frameReady := true } :=
  rfl

/-- The clause on a stop: a `KeyUp` before the latest event. -/
theorem witness_Unobservable_stop :
    let s := { before 0 [] with env := { Env.reset with pending := [.keyUp 0 0], lastEvent := 1 } }
    SameToProgram s { s with ST := 5 } ∧ step s = .refused .timeRunsBackwards := ⟨rfl, rfl⟩

/-- The configuration of V-C16, at the least cost above the budget, after no step. -/
theorem witness_CostAboveTheBudget : let s := { before 0x6001 [] with
      cfg := { Config.cfg0 with cost := Vector.replicate 35 16668 }, env := Env.reset }
    s.env.pending = [] ∧ Fetches s (.ldImm 0 1) ∧ s.cfg.frameBudget < s.costOf (.ldImm 0 1) ∧
      runSteps 0 s = .next s ∧ ∃ t, runSteps 1 s = .next t :=
  ⟨rfl, ⟨rfl, by decide, by decide⟩, by decide, rfl, _, by
    rw [runSteps, step_cycle (.inl ⟨rfl, rfl⟩), cycle_fetches (i := .ldImm 0 1) ⟨rfl, by decide, by decide⟩]
    rfl⟩

/-- Both clauses, the first with one entry and with a full stack. -/
theorem witness_Ret : (before 0 [] : State).stack = [] ∧
    { before 0 [] with stack := [0x204] }.stack = [] ++ [(0x204 : Word)] ∧
    { before 0 [] with stack := List.replicate 16 0x204 }.stack = List.replicate 15 0x204 ++ [(0x204 : Word)] := by
  refine ⟨rfl, rfl, rfl⟩

/-- Both clauses at the boundary: 15 entries (V-Z8) and 16 (V-Z9). -/
theorem witness_Call : { before 0 [] with stack := List.replicate 15 0x204 }.stack.length ≠ Config.cfg0.stackDepth ∧
    { before 0 [] with stack := List.replicate 16 0x204 }.stack.length = Config.cfg0.stackDepth := by decide

theorem witness_ReturnUndoesCall : (before 0 []).stack.length ≠ (before 0 []).cfg.stackDepth ∧
    ∃ t, exec (.call 0x300) (before 0 []) = .next t ∧ t.stack = t.stack := ⟨by decide, _, rfl, rfl⟩

/-- The three instructions, with the destination VF and another; both values of the quirk. -/
theorem witness_Logic : let s := before 0 [(1, 0xF0), (15, 0x0F)]
    (Instr.orReg 1 15 = .orReg 1 15 ∧ (0xFF : Byte) = s.getV 1 ||| s.getV 15) ∧
    (Instr.andReg 15 1 = .andReg 15 1 ∧ (0x00 : Byte) = s.getV 15 &&& s.getV 1) ∧
    (Instr.xorReg 1 15 = .xorReg 1 15 ∧ (0xFF : Byte) = s.getV 1 ^^^ s.getV 15) ∧
    s.cfg.logicQuirk = false ∧ { s.cfg with logicQuirk := true }.logicQuirk = true := by decide

/-- Both sources. -/
theorem witness_Shifts : let s := before 0 [(1, 0x80), (2, 0x01)]
    (0x01 : Byte) = (if s.cfg.shiftQuirk then s.getV 1 else s.getV 2) ∧
    (0x80 : Byte) = (if { s.cfg with shiftQuirk := true }.shiftQuirk then s.getV 1 else s.getV 2) := by decide

/-- V0 without the quirk, and VF with it. -/
theorem witness_JpV0 : (0 : Reg).val = (if Config.cfg0.jumpOffsetQuirk then (0xFFF : Addr).toNat / 256 else 0) ∧
    (15 : Reg).val = (if { Config.cfg0 with jumpOffsetQuirk := true }.jumpOffsetQuirk
      then (0xFFF : Addr).toNat / 256 else 0) := by decide

/-- V-D9: three rows that end at the top of memory, with a collision at cell 0. -/
def drawing9 : State := withBytes 0xFFD [0x80, 0x80, 0x80]
  { before 0xD013 [] with I := 0xFFD, fb := Frame.blank.set 0 (Frame.blank[0].set 0 true) }

theorem witness_Drw : ((3 : Nibble).val = 0 ∨ drawing9.I.toNat + ((3 : Nibble).val - 1) ≤ 0xFFF) ∧
    0 = (if drawing9.cfg.spriteWrapQuirk then (drawing9.getV 0).toNat % 64 else (drawing9.getV 0).toNat) ∧
    [0x80, 0x80, 0x80] = (List.range (3 : Nibble).val).map (fun r => drawing9.readByte (drawing9.I.toNat + r)) ∧
    spriteBit [0x80, 0x80, 0x80] 0 0 ((0 : Fin 2048).val % 64) ((0 : Fin 2048).val / 64) = true ∧
    drawing9.fb.cell 0 = true := by decide

/-- Nothing to draw, at any `I` (V-D7): the clause without a collision. -/
theorem witness_Drw_no_rows : ((0 : Nibble).val = 0 ∨ 0xFFFF + ((0 : Nibble).val - 1) ≤ 0xFFF) ∧
    ∀ px py, spriteBit [] 0 0 px py = true → drawing9.fb.cell 0 = false := by
  refine ⟨.inl rfl, fun px py h => ?_⟩
  simp [spriteBit] at h

/-- The place is the same after the first draw. -/
theorem witness_DoubleDraw : ((3 : Nibble).val = 0 ∨ drawing9.I.toNat + ((3 : Nibble).val - 1) ≤ 0xFFF) ∧
    ∃ t, exec (.drw 0 1 3) drawing9 = .next t ∧ t.getV 0 = drawing9.getV 0 ∧ t.getV 1 = drawing9.getV 1 :=
  ⟨by decide, _, rfl, rfl, rfl⟩

/-- The key index is the low nibble (V-P3). -/
theorem witness_KeySkips : (10 : Key).val = ((before 0 [(2, 0x1A)]).getV 2).toNat % 16 := by decide

/-- The state of V-P9 and V-P10 in its cycle, with the keys whose release is seen there. -/
def waiting7 (t : Nat) : State := (released7 t).latch ⟨t, 0, 0⟩ []
def isReleased (s : State) (k : Key) : Prop := s.shadow[k] = true ∧ s.cur[k] = false ∧ s.env.inp.t < s.relTs[k] + 30000

/-- Both clauses at the ends of the window (V-P9, V-P10). -/
theorem witness_WaitKey_takes : isReleased (waiting7 34999) 7 ∧ ∀ j, j < 7 → ¬isReleased (waiting7 34999) j := by
  unfold isReleased
  decide

theorem witness_WaitKey_waits : ∀ k, ¬isReleased (waiting7 35000) k := by
  unfold isReleased
  decide

theorem witness_ReleaseIsLive : 5000 ≤ (⟨34999, 0, 0⟩ : CycleInput).t ∧ 5000 ≤ (⟨35000, 0, 0⟩ : CycleInput).t := by
  decide

/-- V-F12. -/
theorem witness_LdF : (15 : Nibble).val = ((before 0 [(4, 0xFF)]).getV 4).toNat % 16 ∧
    (before 0xF429 [(4, 0xFF)]).Inv :=
  ⟨by decide, by decide, by decide, by decide, fun _ h => by simp [before, State.reset] at h, by decide, by decide, rfl⟩

/-- V-F22. -/
theorem witness_Bcd : { before 0xF533 [] with I := 0xFFD }.I.toNat + 2 ≤ 0xFFF := by decide

/-- V-F29, V-F37: the last address of memory is stored to and loaded from. -/
theorem witness_StoreAndLoadRegisters : { before 0xFF55 [] with I := 0xFF0 }.I.toNat + (15 : Reg).val ≤ 0xFFF := by
  decide

/-- V-F23: the smallest of three addresses out of range is 0x1000. -/
theorem witness_RangeFaults : let s := { before 0xF533 [] with I := 0xFFE }
    (∃ r, r < 3 ∧ 0x1000 = s.I.toNat + r ∧ 0xFFF < 0x1000) ∧
      ∀ r, r < 3 → s.I.toNat + r < 0x1000 → s.I.toNat + r ≤ 0xFFF :=
  ⟨⟨2, by decide, by decide, by decide⟩, fun r _ h => by omega⟩

/-- The state in which the cycle after `t` fetches, with a charge of 100. -/
def nextCycle (t : State) : State := (t.account 100).latchFree

/-- Fx55, `pc` at the first byte stored: it and the next are the word. -/
theorem witness_StoreIsSeen_regs : let s := { before 0xF155 [(0, 0x12), (1, 0x0A)] with I := 0x202 }
    ∃ t, exec (.stRegs 1) s = .next t ∧ (nextCycle t).mem = t.mem ∧ (nextCycle t).pc = t.pc ∧
      s.I.toNat + (1 : Reg).val ≤ 0xFFF ∧ (0 : Reg) ≤ 1 ∧ (nextCycle t).pc.toNat = s.I.toNat + (0 : Reg).val ∧
      (nextCycle t).pc.toNat + 1 = s.I.toNat + (1 : Reg).val :=
  ⟨_, rfl, rfl, rfl, by decide, by decide, by decide, by decide⟩

/-- Fx55, the one byte stored under the low byte of the word. -/
theorem witness_StoreIsSeen_low : let s := { before 0xF055 [(0, 0x12)] with I := 0x203 }
    ∃ t, exec (.stRegs 0) s = .next t ∧ (nextCycle t).mem = t.mem ∧ (nextCycle t).pc = t.pc ∧
      s.I.toNat + (0 : Reg).val ≤ 0xFFF ∧ (nextCycle t).pc.toNat + 1 = s.I.toNat + (0 : Reg).val :=
  ⟨_, rfl, rfl, rfl, by decide, by decide⟩

/-- Fx33, `pc` at the tens digit: it and the ones digit are the word. -/
theorem witness_StoreIsSeen_digits : let s := { before 0xF533 [(5, 0xEA)] with I := 0x201 }
    ∃ t, exec (.ldB 5) s = .next t ∧ (nextCycle t).mem = t.mem ∧ (nextCycle t).pc = t.pc ∧
      s.I.toNat + 2 ≤ 0xFFF ∧ (nextCycle t).pc.toNat = s.I.toNat + 1 ∧ 3 = (s.getV 5).toNat / 10 % 10 ∧
      (nextCycle t).pc.toNat + 1 = s.I.toNat + 2 ∧ 4 = (s.getV 5).toNat % 10 :=
  ⟨_, rfl, rfl, rfl, by decide, by decide, by decide, by decide, by decide⟩

/-- Fx33, `pc` at the hundreds digit. -/
theorem witness_StoreIsSeen_hundreds : let s := { before 0xF533 [(5, 0xEA)] with I := 0x202 }
    ∃ t, exec (.ldB 5) s = .next t ∧ (nextCycle t).mem = t.mem ∧ (nextCycle t).pc = t.pc ∧
      s.I.toNat + 2 ≤ 0xFFF ∧ (nextCycle t).pc.toNat = s.I.toNat + 0 ∧ 2 = (s.getV 5).toNat / 100 :=
  ⟨_, rfl, rfl, rfl, by decide, by decide, by decide⟩

theorem witness_transactions : (facing (.keyDown 15) (before 0 [])).env.pending = .keyDown 15 :: [] ∧
    (facing (.keyUp 15 0) (before 0 [])).env.pending = .keyUp 15 0 :: [] ∧
    (facing (.keyUp 15 0) (before 0 [])).env.lastEvent ≤ 0 ∧
    (facing .ackFrame (before 0 [])).env.pending = .ackFrame :: [] ∧
    (facing .reset (before 0 [])).env.pending = .reset :: [] :=
  ⟨rfl, rfl, by decide, rfl, rfl⟩

/-- Both clauses at a bound of V-R2, and the first at the bounds on the costs and the stack. -/
theorem witness_Construct : let c := { Config.cfg0 with fontBase := 0x1B0, stackDepth := 1, frameBudget := 100 }
    (facing (.construct [] c) (before 0 [])).env.pending = .construct [] c :: [] ∧
    (([] : List Byte).length ≤ 3584 ∧ c.fontBase ≤ 0x1B0 ∧ 0 < c.frameBudget ∧ 1 ≤ c.stackDepth ∧
      ∀ k : Fin 35, c.cost[k] ≤ c.frameBudget) ∧
    ¬(({ c with fontBase := 0x1B1 } : Config).fontBase ≤ 0x1B0) :=
  ⟨rfl, by decide, by decide⟩

end Sys2Proof.Tests
end

section
/-! PROOF. What every cycle keeps, and with it that only a `Construct` replaces the configuration and the font table
(00_scope.md R6, 10_state.md R23). -/

namespace Sys2Proof.Machine

/-- The pieces of state that a `Cycle` never writes: the keypad arrays (60_exceptions.md R228), the font table, the
configuration, and the record of the outside world that was latched before it. -/
structure CycleKeeps (s t : State) : Prop where
  cur      : t.cur = s.cur
  shadow   : t.shadow = s.shadow
  relTs    : t.relTs = s.relTs
  fontAddr : t.fontAddr = s.fontAddr
  cfg      : t.cfg = s.cfg
  env      : t.env = s.env

theorem CycleKeeps.refl (s : State) : CycleKeeps s s := ⟨rfl, rfl, rfl, rfl, rfl, rfl⟩

theorem CycleKeeps.haltedWith (kind : FaultKind) (info : Nat) (s : State) :
    CycleKeeps s (haltedWith kind info s) := ⟨rfl, rfl, rfl, rfl, rfl, rfl⟩

/-- Accounting writes the timers, `acc` and `frame_ready` only. -/
theorem CycleKeeps.account {s u : State} (h : CycleKeeps s u) (c : Nat) : CycleKeeps s (u.account c) :=
  ⟨h.cur, h.shadow, h.relTs, h.fontAddr, h.cfg, h.env⟩

theorem ExecKeeps.cycleKeeps {s t : State} (h : ExecKeeps s t) : CycleKeeps s t :=
  ⟨h.cur, h.shadow, h.relTs, h.fontAddr, h.cfg, h.env⟩

theorem cycle_keeps {s t : State} (h : cycle s = .next t) : CycleKeeps s t := by
  obtain ⟨_, -, rfl⟩ | ⟨-, -, rfl⟩ | ⟨-, -, -, rfl⟩ | ⟨_, -, -, rfl⟩ | ⟨_, _, _, -, -, -, rfl⟩ |
    ⟨i, u, -, -, -, -, ran, rfl⟩ := cycle_cases h
  · exact .refl _
  · exact .haltedWith _ _ _
  · exact .haltedWith _ _ _
  · exact (CycleKeeps.refl s).account 0
  · exact .haltedWith _ _ _
  · exact ran.cycleKeeps.account _

/-- Latching the inputs of a cycle leaves the configuration and the font table as they were. -/
theorem CycleBegins.cfg_and_fontAddr {s s1 : State} (h : CycleBegins s s1) :
    s1.cfg = s.cfg ∧ s1.fontAddr = s.fontAddr := by
  rw [h.only_env]
  exact ⟨rfl, rfl⟩

/-- Settles O21: of the transactions that `step_cases` lists, a cycle keeps both (`cycle_keeps`), a `Construct` is
excluded, and `Reset`, the key events and `AckFrame` write neither. -/
theorem onlyConstructChangesTheConfiguration : Obligations.OnlyConstructChangesTheConfiguration := by
  intro s t notConstruct hstep
  obtain ⟨s1, begins, ran⟩ | ⟨program, c, rest, pending, -, -⟩ | ⟨rest, -, rfl⟩ | ⟨k, rest, -, rfl⟩ |
    ⟨k, u, rest, -, -, rfl⟩ | ⟨rest, -, rfl⟩ := step_cases hstep
  · have kept := cycle_keeps ran
    obtain ⟨cfg, font⟩ := begins.cfg_and_fontAddr
    exact ⟨kept.cfg.trans cfg, kept.fontAddr.trans font⟩
  · exact absurd pending (notConstruct program c rest)
  · exact ⟨rfl, rfl⟩
  · exact ⟨rfl, rfl⟩
  · exact ⟨rfl, rfl⟩
  · exact ⟨rfl, rfl⟩

end Sys2Proof.Machine
end

section
/-! PROOF. The invariant of the block holds at reset and every step keeps it (10_state.md R15, R16, R23, R24). -/

namespace Sys2Proof.Machine

/-! ### The state after reset is a constructed one -/

/-- A cell put above every other becomes the last. -/
theorem Memory.insert_above {m : Memory} {a : Nat} (b : Byte) (above : ∀ c ∈ m, c.1 < a) :
    Memory.insert a b m = m ++ [(a, b)] := by
  induction m with
  | nil => rfl
  | cons c m ih =>
    obtain ⟨hc, hm⟩ := List.forall_mem_cons.mp above
    rw [Memory.insert, if_neg hc.le.not_gt, ih hm, List.cons_append]

theorem Memory.write_above {m : Memory} {a : Nat} {b : Byte} (above : ∀ c ∈ m, c.1 < a) (hb : b ≠ unlistedByte) :
    m.write a b = m ++ [(a, b)] := by
  have erased : m.erase a = m := List.filter_eq_self.mpr fun c hc => bne_iff_ne.mpr (above c hc).ne
  rw [Memory.write, if_neg hb, erased, Memory.insert_above b above]

/-- Bytes that are not 0, stored above every cell, become the last cells. -/
theorem Memory.store_above {m : Memory} {a : Nat} {bs : List Byte} (above : ∀ c ∈ m, c.1 < a)
    (hb : ∀ b ∈ bs, b ≠ unlistedByte) : m.store a bs = m ++ (bs.zipIdx a).map Prod.swap := by
  induction bs generalizing m a with
  | nil => simp [Memory.store]
  | cons b bs ih =>
    obtain ⟨hb, hbs⟩ := List.forall_mem_cons.mp hb
    rw [Memory.store, Memory.write_above above hb, ih (fun c hc => ?_) hbs]
    · simp
    · rcases List.mem_append.mp hc with hc | hc
      · exact (above c hc).trans a.lt_succ_self
      · rw [List.mem_singleton.mp hc]
        exact a.lt_succ_self

/-- No row of a default glyph is blank, so the glyphs lie in memory as they stand in `cfg0Memory`. -/
theorem constructedMemory_cfg0 : constructedMemory [] Config.cfg0 = cfg0Memory := by
  have noBlankRow : ∀ b ∈ Config.defaultGlyphs.toList, b ≠ unlistedByte := by decide
  rw [constructedMemory, show Config.cfg0.fontGlyphs = Config.defaultGlyphs from rfl,
    Memory.store_above (by simp) noBlankRow]
  decide

/-- Settles O59: the two states are the same field by field, but for how their memory is written. -/
theorem resetStateIsConstructed : Obligations.ResetStateIsConstructed := by
  unfold Obligations.ResetStateIsConstructed
  rw [constructed, constructedMemory_cfg0]
  rfl

/-! ### Transactions other than a cycle -/

/-- The entry point is within the bound of R15. -/
theorem entryPoint_le : (BitVec.ofNat 16 entryPoint).toNat ≤ 0x10FE := by decide

theorem constructedMemory_wf {program : List Byte} {c : Config} (legal : constructLegal program c = true) :
    (constructedMemory program c).wf := by
  simp only [constructLegal, configLegal, Bool.and_eq_true, decide_eq_true_eq] at legal
  obtain ⟨⟨⟨⟨base, -⟩, -⟩, -⟩, size⟩ := legal
  have glyphs : c.fontBase + c.fontGlyphs.toList.length ≤ memSize := by
    rw [Vector.length_toList, memSize]
    omega
  exact Memory.wf_store (Memory.wf_store Memory.wf_nil glyphs) (Nat.add_le_add_left size entryPoint)

theorem constructed_inv {program : List Byte} {c : Config} (legal : constructLegal program c = true) (e : Env) :
    (constructed program c e).Inv where
  memory  := constructedMemory_wf legal
  acc     := Nat.zero_le _
  depth   := Nat.zero_le _
  entries := by simp [constructed]
  pc      := entryPoint_le
  legal   := (Bool.and_eq_true_iff.mp legal).1
  font    := rfl

/-- Settles O19: the state after reset is constructed from legal arguments. -/
theorem invariantHoldsAtReset : Obligations.InvariantHoldsAtReset := by
  unfold Obligations.InvariantHoldsAtReset
  rw [show State.reset = _ from resetStateIsConstructed]
  exact constructed_inv (by decide) Env.reset

/-- `Reset` clears what it does not keep (70_reset_and_hazards.md R245, R246). -/
theorem State.Inv.resetBlock {s : State} (h : s.Inv) : s.resetBlock.Inv :=
  { h with
    acc     := Nat.zero_le _
    depth   := Nat.zero_le _
    entries := by simp [State.resetBlock]
    pc      := entryPoint_le }

/-! ### Where an instruction leaves `pc` -/

/-- The values an instruction can leave in `pc`: where it stands (waiting or Halted), the next instruction, the one
after it, a target, a target with an offset, or the instruction after a call on the stack. -/
inductive PcTarget (s : State) : Word → Prop where
  | stay : PcTarget s s.pc
  | next : PcTarget s (s.pc + 2)
  | skip : PcTarget s (s.pc + 4)
  | jump (nnn : Addr) : PcTarget s (addrOf nnn)
  | offset (nnn : Addr) (b : Byte) : PcTarget s (addrOf nnn + b.setWidth 16)
  | ret {a : Word} (h : a ∈ s.stack) : PcTarget s (a + 2)

theorem PcTarget.skipIf (c : Bool) (s : State) : PcTarget s (s.skipIf c).pc := by
  cases c
  · exact .next
  · exact .skip

theorem execRet_pc {s t : State} (h : execRet s = .next t) : PcTarget s t.pc := by
  unfold execRet at h
  split at h <;> injection h with h <;> subst h
  · exact .stay
  · next a top => exact .ret (List.mem_of_getLast? top)

theorem execCall_pc {nnn : Addr} {s t : State} (h : execCall nnn s = .next t) : PcTarget s t.pc := by
  unfold execCall at h
  split at h <;> injection h with h <;> subst h
  · exact .stay
  · exact .jump nnn

theorem execLdVxK_pc {x : Reg} {s t : State} (h : execLdVxK x s = .next t) : PcTarget s t.pc := by
  unfold execLdVxK at h
  split at h <;> injection h with h <;> subst h
  · exact .next
  · exact .stay

theorem checkRange_pc {n : Nat} {s e t : State} (h : checkRange n s e.advance = .next t) (he : e.pc = s.pc) :
    PcTarget s t.pc := by
  obtain ⟨rfl, -⟩ | ⟨-, -, rfl⟩ := checkRange_cases h
  · rw [State.advance_pc, he]
    exact .next
  · exact .stay

theorem exec_pc {i : Instr} {s t : State} (h : exec i s = .next t) : PcTarget s t.pc := by
  cases i with
  | ret => exact execRet_pc h
  | call nnn => exact execCall_pc h
  | ldVxK x => exact execLdVxK_pc h
  | drw | ldB | stRegs | ldRegs => exact checkRange_pc h rfl
  | jp nnn => injection h with h; exact h ▸ .jump nnn
  | jpV0 nnn => injection h with h; exact h ▸ .offset nnn _
  | seImm | sneImm | seReg | sneReg | skp | sknp => injection h with h; exact h ▸ .skipIf _ s
  | _ => injection h with h; exact h ▸ .next

/-- From a fetchable `pc` no instruction leaves `pc` above 0x10FE, the largest sum of Bnnn (10_state.md R15). -/
theorem PcTarget.le {s : State} (inv : s.Inv) (fetchable : s.pc.toNat ≤ 0xFFE) {w : Word} (h : PcTarget s w) :
    w.toNat ≤ 0x10FE := by
  cases h with
  | stay => omega
  | next => bv_omega
  | skip => bv_omega
  | jump nnn =>
    have := nnn.isLt
    rw [addrOf_toNat]
    omega
  | offset nnn b =>
    have := nnn.isLt
    have := b.isLt
    have sum : (addrOf nnn + b.setWidth 16).toNat ≤ (addrOf nnn).toNat + (b.setWidth 16).toNat := by
      rw [BitVec.toNat_add]
      exact Nat.mod_le _ _
    rw [addrOf_toNat, BitVec.toNat_setWidth_of_le (by decide)] at sum
    omega
  | ret mem =>
    have := inv.entries _ mem
    bv_omega

/-! ### Instructions, cycles and steps -/

section Exec

variable {i : Instr} {s t : State} (inv : s.Inv) (h : exec i s = .next t)
include inv h

theorem exec_memory_wf : t.mem.wf := by
  obtain same | ⟨x, -, inRange, stored⟩ | ⟨x, -, inRange, stored⟩ := exec_mem h
  · exact same ▸ inv.memory
  · exact stored ▸ Memory.wf_store inv.memory inRange
  · exact stored ▸ Memory.wf_store inv.memory (by rwa [firstRegs_length])

theorem exec_stack_depth : t.stack.length ≤ s.cfg.stackDepth := by
  have depth := inv.depth
  obtain same | ⟨-, popped⟩ | ⟨-, pushed, notFull⟩ := exec_stack h
  · rwa [same]
  · rw [popped, List.length_dropLast]
    omega
  · rw [pushed, List.length_append, List.length_singleton]
    omega

theorem exec_stack_entries (fetchable : s.pc.toNat ≤ 0xFFE) : ∀ a ∈ t.stack, a.toNat ≤ 0xFFE := by
  intro a ha
  obtain same | ⟨-, popped⟩ | ⟨-, pushed, -⟩ := exec_stack h
  · exact inv.entries a (same ▸ ha)
  · exact inv.entries a (List.mem_of_mem_dropLast (popped ▸ ha))
  · rw [pushed, List.mem_append, List.mem_singleton] at ha
    rcases ha with ha | rfl
    · exact inv.entries a ha
    · exact fetchable

theorem exec_keeps_inv (fetchable : s.pc.toNat ≤ 0xFFE) (kept : ExecKeeps s t) : t.Inv where
  memory  := exec_memory_wf inv h
  acc     := by rw [kept.acc, kept.cfg]; exact inv.acc
  depth   := by rw [kept.cfg]; exact exec_stack_depth inv h
  entries := exec_stack_entries inv h fetchable
  pc      := (exec_pc h).le inv fetchable
  legal   := by rw [kept.cfg]; exact inv.legal
  font    := by rw [kept.fontAddr, kept.cfg]; exact inv.font

end Exec

/-- Entering Halted keeps the invariant, which does not speak of the status. -/
theorem State.Inv.haltedWith {s : State} (h : s.Inv) (kind : FaultKind) (info : Nat) :
    (haltedWith kind info s).Inv := { h with }

theorem State.Inv.account {s : State} (h : s.Inv) (c : Nat) : (s.account c).Inv :=
  { h with acc := State.account_acc_le c s }

theorem cycle_keeps_inv {s t : State} (inv : s.Inv) (h : cycle s = .next t) : t.Inv := by
  obtain ⟨_, -, rfl⟩ | ⟨-, -, rfl⟩ | ⟨-, -, -, rfl⟩ | ⟨_, -, -, rfl⟩ | ⟨_, _, _, -, -, -, rfl⟩ |
    ⟨i, u, ⟨-, fetchable, -⟩, -, ran, -, kept, rfl⟩ := cycle_cases h
  · exact inv
  · exact inv.haltedWith _ _
  · exact inv.haltedWith _ _
  · exact inv.account 0
  · exact inv.haltedWith _ _
  · exact (exec_keeps_inv inv ran fetchable kept).account _

/-- Settles O20: a cycle keeps the invariant (`cycle_keeps_inv`), `Construct` and `Reset` establish it anew, and the
key events and `AckFrame` touch nothing it speaks of. -/
theorem everyStepKeepsTheInvariant : Obligations.EveryStepKeepsTheInvariant := by
  intro s t inv hstep
  obtain ⟨s1, begins, ran⟩ | ⟨program, c, rest, -, legal, rfl⟩ | ⟨rest, -, rfl⟩ | ⟨k, rest, -, rfl⟩ |
    ⟨k, u, rest, -, -, rfl⟩ | ⟨rest, -, rfl⟩ := step_cases hstep
  · have latched : s1.Inv := begins.only_env ▸ { inv with }
    exact cycle_keeps_inv latched ran
  · exact constructed_inv legal _
  · exact State.Inv.resetBlock (s := s.withPending rest) { inv with }
  · exact { inv with }
  · exact { inv with }
  · exact { inv with }

end Sys2Proof.Machine
end

section
/-! PROOF. `ST` and `frame_ready` are outputs only: no transaction reads them (10_state.md R29 (d)). -/

namespace Sys2Proof.Machine

/-- The state with other values in the two pieces of state that no program observes. -/
def State.withHidden (st : Byte) (ready : Bool) (s : State) : State := { s with ST := st, frameReady := ready }

theorem sameToProgram_iff {s u : State} : SameToProgram s u ↔ ∃ st ready, u = s.withHidden st ready :=
  ⟨fun h => ⟨u.ST, u.frameReady, h⟩, fun ⟨_, _, h⟩ => h ▸ rfl⟩

/-- Two outcomes that a program cannot tell apart: next states that differ at most in `ST` and `frame_ready`, or the
same refusal. -/
inductive Alike : Out → Out → Prop where
  | next {t u : State} (h : SameToProgram t u) : Alike (.next t) (.next u)
  | refused (r : Refusal) : Alike (.refused r) (.refused r)

theorem Alike.exists_next {t : State} {o : Out} : Alike (.next t) o → ∃ u, o = .next u ∧ SameToProgram t u
  | .next h => ⟨_, rfl, h⟩

theorem Alike.eq_refused {r : Refusal} {o : Out} : Alike (.refused r) o → o = .refused r
  | .refused _ => rfl

/-- Outcomes chosen by the same test are alike if both choices are. -/
theorem Alike.ite {c : Prop} [Decidable c] {o o' r r' : Out} (yes : Alike o o') (no : Alike r r') :
    Alike (if c then o else r) (if c then o' else r') := by
  split
  · exact yes
  · exact no

/-! ### Instructions -/

section Hidden

variable (s : State) (st : Byte) (ready : Bool)

@[simp] theorem State.withHidden_I : (s.withHidden st ready).I = s.I := rfl
@[simp] theorem State.withHidden_stack : (s.withHidden st ready).stack = s.stack := rfl
@[simp] theorem State.withHidden_env : (s.withHidden st ready).env = s.env := rfl
@[simp] theorem State.withHidden_firstKey : (s.withHidden st ready).firstKey = s.firstKey := rfl

theorem checkRange_alike (n : Nat) {e e' : State} (h : SameToProgram e e') :
    Alike (checkRange n s e) (checkRange n (s.withHidden st ready) e') := by
  simp only [checkRange, State.withHidden_I]
  cases outOfRange s.I.toNat n with
  | none => exact .next h
  | some a => exact .next rfl

/-- The instructions with two outcomes choose between them alike; every outcome carries the hidden pieces along, or,
as Fx18 does, writes the same value over both. -/
theorem exec_alike (i : Instr) : Alike (exec i s) (exec i (s.withHidden st ready)) := by
  cases i with
  | ret =>
    simp only [exec, execRet, State.withHidden_stack]
    cases s.stack.getLast? with
    | none => exact .next rfl
    | some a => exact .next rfl
  | call nnn => exact .ite (c := s.stack.length = s.cfg.stackDepth) (.next rfl) (.next rfl)
  | ldVxK x =>
    simp only [exec, execLdVxK, State.withHidden_firstKey]
    cases s.firstKey with
    | none => exact .next rfl
    | some k => exact .next rfl
  | drw x y n => exact checkRange_alike s st ready _ rfl
  | ldB x => exact checkRange_alike s st ready _ rfl
  | stRegs x => exact checkRange_alike s st ready _ rfl
  | ldRegs x => exact checkRange_alike s st ready _ rfl
  | _ => exact .next rfl

/-! ### The cycle -/

/-- Accounting ticks `ST` and sets `frame_ready`, and reads neither for anything else. -/
theorem account_sameToProgram (c : Nat) {t u : State} (h : SameToProgram t u) :
    SameToProgram (t.account c) (u.account c) := by
  obtain ⟨st, ready, rfl⟩ := sameToProgram_iff.mp h
  rfl

theorem settle_alike (c : Nat) {o o' : Out} (h : Alike o o') : Alike (settle c o) (settle c o') := by
  cases h with
  | refused r => exact .refused r
  | @next t u h =>
    have status : u.status = t.status := by rw [h]
    simp only [settle, status]
    cases t.status with
    | running => exact .next (account_sameToProgram c h)
    | halted f => exact .next h

theorem runDecoded_alike (i : Instr) : Alike (runDecoded i s) (runDecoded i (s.withHidden st ready)) :=
  .ite (c := s.defers i = true) (.next rfl) (settle_alike _ (exec_alike s st ready i))

theorem cycle_alike : Alike (cycle s) (cycle (s.withHidden st ready)) := by
  cases hs : s.status with
  | halted f =>
    rw [cycle_halted hs, cycle_halted (s := s.withHidden st ready) hs]
    exact .next rfl
  | running =>
    by_cases hp : s.pc.toNat ≤ 0xFFE
    · cases hd : decodeOp s.fetchWord with
      | none =>
        rw [cycle_unknown hs hp hd, cycle_unknown (s := s.withHidden st ready) hs hp hd]
        exact .next rfl
      | some i =>
        rw [cycle_fetches ⟨hs, hp, hd⟩, cycle_fetches (s := s.withHidden st ready) ⟨hs, hp, hd⟩]
        exact runDecoded_alike s st ready i
    · have hp := Nat.lt_of_not_le hp
      rw [cycle_fetch_fault hs hp, cycle_fetch_fault (s := s.withHidden st ready) hs hp]
      exact .next rfl

/-! ### The step -/

/-- A transaction is admitted or refused for its own arguments and the times of the outside world. -/
theorem transact_alike (tx : Transaction) (rest : List Transaction) :
    Alike (transact tx rest s) (transact tx rest (s.withHidden st ready)) := by
  cases tx with
  | construct program c => exact .ite (c := constructLegal program c = true) (.next rfl) (.refused _)
  | keyUp k t => exact .ite (c := s.env.lastEvent ≤ t) (.next rfl) (.refused _)
  | cycle inp =>
    exact .ite (c := s.earliestCycle ≤ inp.t) (cycle_alike (s.latch inp rest) st ready) (.refused _)
  | reset => exact .next rfl
  | keyDown k => exact .next rfl
  | ackFrame => exact .next rfl

theorem step_alike : Alike (step s) (step (s.withHidden st ready)) := by
  simp only [step, State.withHidden_env]
  cases s.env.pending with
  | nil => exact cycle_alike s.latchFree st ready
  | cons tx rest => exact transact_alike s st ready tx rest

end Hidden

/-- Settles O24: the two steps are alike (`step_alike`), so the second answers as the first does. -/
theorem soundTimerAndFrameReadyAreUnobservable : Obligations.SoundTimerAndFrameReadyAreUnobservable := by
  intro s1 s2 same
  obtain ⟨st, ready, rfl⟩ := sameToProgram_iff.mp same
  have alike := step_alike s1 st ready
  exact ⟨fun t1 h => (h ▸ alike).exists_next, fun r h => (h ▸ alike).eq_refused⟩

end Sys2Proof.Machine
end

section
/-! PROOF. Which instructions write the frame buffer and the stack in a cycle (10_state.md R16, R20). -/

namespace Sys2Proof.Machine

/-- A cycle leaves the frame buffer and the stack alone, but for what the instruction it runs writes to them. -/
theorem cycle_keeps_or_runs {s t : State} (h : cycle s = .next t) :
    (t.fb = s.fb ∧ t.stack = s.stack) ∨
    ∃ i u, Fetches s i ∧ exec i s = .next u ∧ t.fb = u.fb ∧ t.stack = u.stack := by
  obtain ⟨_, -, rfl⟩ | ⟨-, -, rfl⟩ | ⟨-, -, -, rfl⟩ | ⟨_, -, -, rfl⟩ | ⟨_, _, _, -, -, -, rfl⟩ |
    ⟨i, u, fetched, -, ran, -, -, rfl⟩ := cycle_cases h
  · exact .inl ⟨rfl, rfl⟩
  · exact .inl ⟨rfl, rfl⟩
  · exact .inl ⟨rfl, rfl⟩
  · exact .inl ⟨rfl, rfl⟩
  · exact .inl ⟨rfl, rfl⟩
  · exact .inr ⟨i, u, fetched, ran, rfl, rfl⟩

theorem cycle_fb {s t : State} (h : cycle s = .next t) :
    t.fb = s.fb ∨ Fetches s .cls ∨ ∃ x y n, Fetches s (.drw x y n) := by
  obtain ⟨kept, -⟩ | ⟨i, u, fetched, ran, fb, -⟩ := cycle_keeps_or_runs h
  · exact .inl kept
  · obtain kept | rfl | ⟨x, y, n, rfl⟩ := exec_fb ran
    · exact .inl (fb.trans kept)
    · exact .inr (.inl fetched)
    · exact .inr (.inr ⟨x, y, n, fetched⟩)

theorem cycle_stack {s t : State} (h : cycle s = .next t) :
    t.stack = s.stack ∨ Fetches s .ret ∨ ∃ nnn, Fetches s (.call nnn) := by
  obtain ⟨-, kept⟩ | ⟨i, u, fetched, ran, -, stack⟩ := cycle_keeps_or_runs h
  · exact .inl kept
  · obtain kept | ⟨rfl, -⟩ | ⟨⟨nnn, rfl⟩, -, -⟩ := exec_stack ran
    · exact .inl (stack.trans kept)
    · exact .inr (.inl fetched)
    · exact .inr (.inr ⟨nnn, fetched⟩)

/-- Settles O23: latching the inputs writes none of these pieces, and the cycle that follows only what `cycle_fb`,
`cycle_stack` and `cycle_keeps` say. -/
theorem whatACycleMayWrite : Obligations.WhatACycleMayWrite := by
  intro s s1 t begins hstep
  have ran : cycle s1 = .next t := step_cycle begins ▸ hstep
  have kept := cycle_keeps ran
  have latched := begins.only_env
  have fb : s1.fb = s.fb := by rw [latched]
  have stack : s1.stack = s.stack := by rw [latched]
  have cur : s1.cur = s.cur := by rw [latched]
  have shadow : s1.shadow = s.shadow := by rw [latched]
  have relTs : s1.relTs = s.relTs := by rw [latched]
  exact ⟨fb ▸ cycle_fb ran, stack ▸ cycle_stack ran, cur ▸ kept.cur, shadow ▸ kept.shadow, relTs ▸ kept.relTs⟩

end Sys2Proof.Machine
end

section
/-! PROOF. The fetched word and its two bytes (20_memory.md R42, R43). -/

namespace Sys2Proof.Machine

theorem fetchWord_toNat (s : State) :
    s.fetchWord.toNat = (s.readByte s.pc.toNat).toNat * 256 + (s.readByte (s.pc.toNat + 1)).toNat :=
  bytesWord_toNat _ _

theorem fetchWord_high (s : State) : s.fetchWord.toNat / 256 = (s.readByte s.pc.toNat).toNat := by
  have := (s.readByte (s.pc.toNat + 1)).isLt
  rw [fetchWord_toNat]
  omega

theorem fetchWord_low (s : State) : s.fetchWord.toNat % 256 = (s.readByte (s.pc.toNat + 1)).toNat := by
  have := (s.readByte (s.pc.toNat + 1)).isLt
  rw [fetchWord_toNat]
  omega

theorem decode_fetchBytes_eq_ok (s : State) (i : Instr) :
    decode s.fetchBytes = .ok (i, []) ↔ decodeOp s.fetchWord = some i := by
  rw [decode_fetchBytes]
  cases decodeOp s.fetchWord with
  | none => simp
  | some j => simp

/-- Settles O6. -/
theorem fetchIsBigEndian : Obligations.FetchIsBigEndian :=
  fun s => ⟨fetchWord_toNat s, decode_fetchBytes_eq_ok s⟩

end Sys2Proof.Machine
end

section
/-! PROOF. The stores to memory: which bytes they can change (20_memory.md R45), and that the next fetch sees them
(R53). -/

namespace Sys2Proof.Machine

/-! ### Which bytes a step can change -/

/-- A byte that a store changes is among those it stores. -/
theorem Memory.mem_range_of_read_store_ne {m : Memory} {a k : Nat} {bs : List Byte}
    (h : (m.store a bs).read k ≠ m.read k) : a ≤ k ∧ k < a + bs.length := by
  by_contra outside
  exact h (Memory.read_store_outside m a bs (by omega))

/-- A cycle leaves memory alone, or it ran an Fx33 or an Fx55 and stored what that instruction stores. -/
theorem cycle_mem {s t : State} (h : cycle s = .next t) :
    t.mem = s.mem ∨
    (∃ x, Fetches s (.ldB x) ∧ t.mem = s.mem.store s.I.toNat (bcdBytes (s.getV x))) ∨
    (∃ x, Fetches s (.stRegs x) ∧ t.mem = s.mem.store s.I.toNat (s.firstRegs x)) := by
  obtain ⟨_, -, rfl⟩ | ⟨-, -, rfl⟩ | ⟨-, -, -, rfl⟩ | ⟨_, -, -, rfl⟩ | ⟨_, _, _, -, -, -, rfl⟩ |
    ⟨i, u, fetched, -, ran, -, -, rfl⟩ := cycle_cases h
  · exact .inl rfl
  · exact .inl rfl
  · exact .inl rfl
  · exact .inl rfl
  · exact .inl rfl
  · rw [State.account_mem]
    obtain kept | ⟨x, rfl, -, stored⟩ | ⟨x, rfl, -, stored⟩ := exec_mem ran
    · exact .inl kept
    · exact .inr (.inl ⟨x, fetched, stored⟩)
    · exact .inr (.inr ⟨x, fetched, stored⟩)

/-- A byte that differs after a cycle is one that the Fx33 or Fx55 it fetched addresses. -/
theorem cycle_changed_byte {s t : State} {a : Nat} (h : cycle s = .next t) (changed : t.readByte a ≠ s.readByte a) :
    (∃ x, Fetches s (.ldB x) ∧ s.I.toNat ≤ a ∧ a ≤ s.I.toNat + 2) ∨
    (∃ x, Fetches s (.stRegs x) ∧ s.I.toNat ≤ a ∧ a ≤ s.I.toNat + x.val) := by
  unfold State.readByte at changed
  obtain kept | ⟨x, fetched, stored⟩ | ⟨x, fetched, stored⟩ := cycle_mem h
  · exact absurd (by rw [kept]) changed
  · obtain ⟨low, high⟩ := Memory.mem_range_of_read_store_ne (stored ▸ changed)
    rw [bcdBytes_length] at high
    exact .inl ⟨x, fetched, low, by omega⟩
  · obtain ⟨low, high⟩ := Memory.mem_range_of_read_store_ne (stored ▸ changed)
    rw [firstRegs_length] at high
    exact .inr ⟨x, fetched, low, by omega⟩

/-- Settles O22: of the transactions that `step_cases` lists, a cycle changes only the bytes of `cycle_changed_byte`,
a `Construct` is excluded, and `Reset`, the key events and `AckFrame` keep memory. -/
theorem onlyFx33AndFx55StoreToMemory : Obligations.OnlyFx33AndFx55StoreToMemory := by
  intro s t a notConstruct hstep changed
  obtain ⟨s1, begins, ran⟩ | ⟨program, c, rest, pending, -, -⟩ | ⟨rest, -, rfl⟩ | ⟨k, rest, -, rfl⟩ |
    ⟨k, u, rest, -, -, rfl⟩ | ⟨rest, -, rfl⟩ := step_cases hstep
  · have latched := begins.only_env
    have mem : s1.readByte a = s.readByte a := by rw [latched]; rfl
    have index : s1.I = s.I := by rw [latched]
    exact ⟨s1, begins, index ▸ cycle_changed_byte ran (mem ▸ changed)⟩
  · exact absurd pending (notConstruct program c rest)
  · exact absurd rfl changed
  · exact absurd rfl changed
  · exact absurd rfl changed
  · exact absurd rfl changed

/-! ### Addresses out of range -/

/-- The range check halts with the smallest address out of range, whichever effect it guards. -/
theorem checkRange_smallest {n a : Nat} {s effect : State}
    (out : ∃ r, r < n ∧ a = s.I.toNat + r ∧ 0xFFF < a)
    (least : ∀ r, r < n → s.I.toNat + r < a → s.I.toNat + r ≤ 0xFFF) :
    checkRange n s effect = .next (haltedWith .memoryOutOfBounds a s) := by
  obtain ⟨r, hr, rfl, above⟩ := out
  have smallest : s.I.toNat + r = max s.I.toNat 0x1000 := by
    have first := least 0 (by omega)
    have previous := least (r - 1) (by omega)
    omega
  rw [smallest, checkRange_out (by omega) (by omega)]
  rfl

/-- Settles O52: each of the four instructions is its effect under the range check. -/
theorem rangeFaultsChangeNothing : Obligations.RangeFaultsChangeNothing := by
  rintro i n s (⟨x, y, m, rfl, rfl⟩ | ⟨x, rfl, rfl⟩ | ⟨x, rfl, rfl⟩ | ⟨x, rfl, rfl⟩) a out least
  · exact checkRange_smallest out least
  · exact checkRange_smallest out least
  · exact checkRange_smallest out least
  · exact checkRange_smallest out least

/-! ### A store is seen by the next fetch -/

/-- The i-th byte of a store, fetched as the high or as the low byte of a word. -/
theorem fetchWord_of_store {u : State} {m : Memory} {base i : Nat} {bs : List Byte} (stored : u.mem = m.store base bs)
    (hi : i < bs.length) :
    (u.pc.toNat = base + i → u.fetchWord.toNat / 256 = (bs.getD i 0).toNat) ∧
    (u.pc.toNat + 1 = base + i → u.fetchWord.toNat % 256 = (bs.getD i 0).toNat) := by
  have byte : u.readByte (base + i) = bs.getD i 0 := by
    rw [State.readByte, stored, Memory.read_store, if_pos (by omega), Nat.add_sub_cancel_left]
  exact ⟨fun high => by rw [fetchWord_high, high, byte], fun low => by rw [fetchWord_low, low, byte]⟩

theorem exec_stRegs_mem {x : Reg} {s t : State} (inRange : s.I.toNat + x.val ≤ 0xFFF)
    (h : exec (.stRegs x) s = .next t) : t.mem = s.mem.store s.I.toNat (s.firstRegs x) := by
  rw [exec, execStRegs, checkRange_in (by omega)] at h
  injection h with h
  exact h ▸ rfl

theorem exec_ldB_mem {x : Reg} {s t : State} (inRange : s.I.toNat + 2 ≤ 0xFFF)
    (h : exec (.ldB x) s = .next t) : t.mem = s.mem.store s.I.toNat (bcdBytes (s.getV x)) := by
  rw [exec, execLdB, checkRange_in (by omega)] at h
  injection h with h
  exact h ▸ rfl

/-- Each byte of `bcdBytes` is its decimal digit: a digit is below 256. -/
theorem bcdBytes_getD_toNat {v : Byte} {i digit : Nat}
    (h : (i = 0 ∧ digit = v.toNat / 100) ∨ (i = 1 ∧ digit = v.toNat / 10 % 10) ∨ (i = 2 ∧ digit = v.toNat % 10)) :
    ((bcdBytes v).getD i 0).toNat = digit := by
  have := v.isLt
  obtain ⟨rfl, rfl⟩ | ⟨rfl, rfl⟩ | ⟨rfl, rfl⟩ := h
  · exact Nat.mod_eq_of_lt (by omega)
  · exact Nat.mod_eq_of_lt (by omega)
  · exact Nat.mod_eq_of_lt (by omega)

/-- Settles O53: both instructions are a store of bytes from `I` on, and the fetch reads memory itself. -/
theorem storeIsSeenByTheNextFetch : Obligations.StoreIsSeenByTheNextFetch := by
  intro x s t u mem _
  constructor
  · intro inRange ran r hr
    have stored := mem.trans (exec_stRegs_mem inRange ran)
    have le : r.val ≤ x.val := hr
    rw [← firstRegs_getD s hr]
    exact fetchWord_of_store stored (by rw [firstRegs_length]; omega)
  · intro inRange ran i digit hdigit
    have stored := mem.trans (exec_ldB_mem inRange ran)
    rw [← bcdBytes_getD_toNat hdigit]
    exact fetchWord_of_store stored (by rw [bcdBytes_length]; omega)

end Sys2Proof.Machine
end

section
/-! PROOF. The encoding (30_encoding.md R61 to R67): the decoder against the encoder, the words that select no
instruction, and the decoder against the opcode table. -/

namespace Sys2Proof

/-! ### A word put together again from its fields -/

section Fields

variable {t n : BitVec 4} {op : Word} (top : opTop op = t.toNat)
include top

theorem encAddr_fields : encAddr t (opNNN op) = op := by
  apply BitVec.eq_of_toNat_eq
  rw [encAddr_toNat, opNNN_toNat, ← top, opTop_eq]
  omega

theorem encRegImm_fields : encRegImm t (opX op) (opNN op) = op := by
  apply BitVec.eq_of_toNat_eq
  rw [encRegImm_toNat, opX_val, opNN_toNat, ← top, opTop_eq]
  omega

theorem encRegRegN_fields (low : (opN op).val = n.toNat) : encRegRegN t (opX op) (opY op) n = op := by
  apply BitVec.eq_of_toNat_eq
  rw [encRegRegN_toNat, opX_val, opY_val, ← low, opN_val, ← top, opTop_eq]
  omega

end Fields

/-! ### Decoding what was encoded -/

/-- The two fixed words of family 0 carry the fields that `SYS` leaves out. -/
theorem decodeFamily0_encAddr {nnn : Addr} (h : sysFieldOk nnn = true) :
    decodeFamily0 (encAddr 0x0 nnn) = .sys nnn := by
  obtain ⟨notCls, notRet⟩ : nnn ≠ 0x0E0 ∧ nnn ≠ 0x0EE := by simpa [sysFieldOk] using h
  have ne_word (w : Word) (field : nnn ≠ opNNN w) : encAddr 0x0 nnn ≠ w :=
    fun word => field (by rw [← word, opNNN_encAddr])
  rw [decodeFamily0, if_neg (ne_word 0x00E0 notCls), if_neg (ne_word 0x00EE notRet), opNNN_encAddr]

/-- The decoder finds the family nibble and the operands in the fields where the layout of the word put them. -/
theorem decodeOp_encode {i : Instr} (wf : i.wf = true) : decodeOp (encode i) = some i := by
  cases i with
  | cls | ret => decide
  | sys nnn =>
    have family0 : decodeFamily0 (encAddr 0x0 nnn) = .sys nnn := decodeFamily0_encAddr wf
    simpa [encode, decodeOp] using family0
  | jp | call | ldI | jpV0 | seImm | sneImm | ldImm | addImm | rnd => simp [encode, decodeOp]
  | seReg | sneReg | drw => simp [encode, decodeOp, Fin.ext_iff, nib_toNat]
  | ldReg | orReg | andReg | xorReg | addReg | sub | shr | subn | shl => simp [encode, decodeOp, decodeFamily8]
  | skp | sknp => simp [encode, decodeOp, decodeFamilyE]
  | ldVxDT | ldVxK | ldDTVx | ldSTVx | addI | ldF | ldB | stRegs | ldRegs =>
    simp [encode, decodeOp, decodeFamilyF]

/-- Settles O1: the bytes of a word decode as the word does (`decode_wordBytes`), and the word of an instruction
carries its operands in the fields that the decoder reads (`decodeOp_encode`). -/
theorem decodeOfEncodeIsTheInstruction : Obligations.DecodeOfEncodeIsTheInstruction := by
  intro i rest wf
  refine ⟨decodeOp_encode wf, ?_⟩
  rw [encodeBytes, decode_wordBytes, decodeOp_encode wf]

/-! ### Encoding what was decoded -/

theorem decodeFamily0_encode {op : Word} (top : opTop op = 0) :
    (decodeFamily0 op).wf = true ∧ encode (decodeFamily0 op) = op := by
  have word : encAddr 0x0 (opNNN op) = op := encAddr_fields top
  fun_cases decodeFamily0 op with
  | case1 cls => exact ⟨rfl, cls.symm⟩
  | case2 _ ret => exact ⟨rfl, ret.symm⟩
  | case3 notCls notRet =>
    have fieldOk : opNNN op ≠ 0x0E0 ∧ opNNN op ≠ 0x0EE :=
      ⟨fun h => notCls (by rw [← word, h]; rfl), fun h => notRet (by rw [← word, h]; rfl)⟩
    exact ⟨by simpa [Instr.wf, sysFieldOk] using fieldOk, word⟩

theorem decodeFamily8_encode {x y : Reg} {n : Nat} {i : Instr} (h : decodeFamily8 x y n = some i) :
    i.wf = true ∧ encode i = encRegRegN 0x8 x y (BitVec.ofNat 4 n) := by
  unfold decodeFamily8 at h
  split at h <;> cases h <;> exact ⟨rfl, rfl⟩

theorem decodeFamilyE_encode {x : Reg} {nn : Byte} {i : Instr} (h : decodeFamilyE x nn = some i) :
    i.wf = true ∧ encode i = encRegImm 0xE x nn := by
  unfold decodeFamilyE at h
  split_ifs at h <;> cases h <;> subst nn <;> exact ⟨rfl, rfl⟩

theorem decodeFamilyF_encode {x : Reg} {nn : Byte} {i : Instr} (h : decodeFamilyF x nn = some i) :
    i.wf = true ∧ encode i = encRegImm 0xF x nn := by
  unfold decodeFamilyF at h
  split_ifs at h <;> cases h <;> subst nn <;> exact ⟨rfl, rfl⟩

/-- Settles O2: the fields that an arm of the decoder reads and those it tests are together the whole word. The cases
are the arms in their order, two for each of the families 5 and 9. -/
theorem encodeOfDecodeIsTheWord : Obligations.EncodeOfDecodeIsTheWord := by
  intro op i
  have := opTop_lt op
  fun_cases decodeOp op with
  | case1 top => rintro ⟨⟩; exact decodeFamily0_encode top
  | case2 top | case3 top | case13 top | case14 top => rintro ⟨⟩; exact ⟨rfl, encAddr_fields top⟩
  | case4 top | case5 top | case8 top | case9 top | case15 top => rintro ⟨⟩; exact ⟨rfl, encRegImm_fields top⟩
  | case6 top low | case11 top low => rintro ⟨⟩; exact ⟨rfl, encRegRegN_fields top (congrArg Fin.val low)⟩
  | case7 | case12 => exact nofun
  | case10 top =>
    have low : (opN op).val = (BitVec.ofNat 4 (opN op).val).toNat := (Nat.mod_eq_of_lt (opN op).isLt).symm
    exact fun h => (decodeFamily8_encode h).imp_right (·.trans (encRegRegN_fields top low))
  | case16 top => rintro ⟨⟩; exact ⟨rfl, encRegRegN_fields top rfl⟩
  | case17 top => exact fun h => (decodeFamilyE_encode h).imp_right (·.trans (encRegImm_fields top))
  | case18 =>
    have top : opTop op = 0xF := by simp only [imp_false] at *; omega
    exact fun h => (decodeFamilyF_encode h).imp_right (·.trans (encRegImm_fields top))

/-! ### The words that select no instruction -/

theorem decodeFamily8_eq_none {x y : Reg} {n : Nat} (lt : n < 16) :
    decodeFamily8 x y n = none ↔ n ∈ [0x8, 0x9, 0xA, 0xB, 0xC, 0xD, 0xF] := by
  fun_cases decodeFamily8 x y n with
  | case10 => simp only [imp_false, List.mem_cons, List.not_mem_nil, true_iff] at *; omega
  | _ => simp

/-- Only a word that fails every test of a chain selects nothing. -/
theorem ite_some_eq_none {c : Prop} [Decidable c] {i : Instr} {o : Option Instr} :
    (if c then some i else o) = none ↔ ¬c ∧ o = none := by
  by_cases h : c <;> simp [h]

theorem decodeFamilyE_eq_none {x : Reg} {nn : Byte} : decodeFamilyE x nn = none ↔ nn.toNat ∉ [0x9E, 0xA1] := by
  simp [decodeFamilyE, ite_some_eq_none, ← BitVec.toNat_inj]

theorem decodeFamilyF_eq_none {x : Reg} {nn : Byte} :
    decodeFamilyF x nn = none ↔ nn.toNat ∉ [0x07, 0x0A, 0x15, 0x18, 0x1E, 0x29, 0x33, 0x55, 0x65] := by
  simp [decodeFamilyF, ite_some_eq_none, ← BitVec.toNat_inj]

/-- The words that select no instruction (R66), by the fields of R61. -/
theorem decodeOp_eq_none {op : Word} : decodeOp op = none ↔
    (opTop op = 0x5 ∧ (opN op).val ≠ 0) ∨
    (opTop op = 0x8 ∧ (opN op).val ∈ [0x8, 0x9, 0xA, 0xB, 0xC, 0xD, 0xF]) ∨
    (opTop op = 0x9 ∧ (opN op).val ≠ 0) ∨
    (opTop op = 0xE ∧ (opNN op).toNat ∉ [0x9E, 0xA1]) ∨
    (opTop op = 0xF ∧ (opNN op).toNat ∉ [0x07, 0x0A, 0x15, 0x18, 0x1E, 0x29, 0x33, 0x55, 0x65]) := by
  have := opTop_lt op
  fun_cases decodeOp op with
  | case10 top => simp [top, decodeFamily8_eq_none (opN op).isLt]
  | case17 top => simp [top, decodeFamilyE_eq_none]
  | case18 =>
    have top : opTop op = 0xF := by simp only [imp_false] at *; omega
    simp [top, decodeFamilyF_eq_none]
  | case6 top low | case7 top low | case11 top low | case12 top low => simp [top, low]
  | _ => simp [*]

/-- Settles O3: `decodeOp_eq_none`, with the fields as numbers. -/
theorem unknownWordsAreThoseListed : Obligations.UnknownWordsAreThoseListed := by
  intro op
  rw [← opTop_eq, ← opN_val, ← opNN_toNat]
  exact decodeOp_eq_none

/-! ### The opcode table, row by row -/

/-- Every row fixes the family nibble. -/
theorem row_fixes_opTop : ∀ r : Fin 35, opTop (opcodeTable[r]).mask = 0xF := by decide

/-- Where the decoder tests the low nibble, the row fixes it. -/
theorem row_fixes_opN : ∀ r : Fin 35, opTop (opcodeTable[r]).pattern ∈ [0x5, 0x8, 0x9] →
    opN (opcodeTable[r]).mask = 0xF := by decide

/-- Where the decoder tests the low byte, the row fixes it. -/
theorem row_fixes_opNN : ∀ r : Fin 35, opTop (opcodeTable[r]).pattern ∈ [0xE, 0xF] →
    opNN (opcodeTable[r]).mask = 0xFF := by decide

theorem pattern_decodes : ∀ r : Fin 35, decodeOp (opcodeTable[r]).pattern ≠ none := by decide

/-- Two different rows agree on the bits that both fix only in family 0. -/
theorem rows_disagree : ∀ r r' : Fin 35,
    (opcodeTable[r]).pattern &&& (opcodeTable[r']).mask = (opcodeTable[r']).pattern &&& (opcodeTable[r]).mask →
    r ≠ r' → r.val ≤ 2 ∧ r'.val ≤ 2 := by decide

/-- The two rows before the general row of family 0 are fixed words. -/
theorem first_rows_fix_word : ∀ r : Fin 35, r.val < 2 →
    (opcodeTable[r]).mask = BitVec.allOnes 16 ∧ (decodeOp (opcodeTable[r]).pattern).map opRow = some r := by decide

/-! ### The fields of R61 under a mask that keeps them whole -/

theorem opTop_and {op mask : Word} (h : opTop mask = 0xF) : opTop (op &&& mask) = opTop op := by
  have whole : mask.extractLsb' 12 4 = 0xF#4 := BitVec.eq_of_toNat_eq h
  rw [opTop, BitVec.extractLsb'_and, whole]
  exact congrArg BitVec.toNat BitVec.and_allOnes

theorem opN_and {op mask : Word} (h : opN mask = 0xF) : opN (op &&& mask) = opN op := by
  have whole : mask.extractLsb' 0 4 = 0xF#4 := BitVec.eq_of_toFin_eq h
  rw [opN, BitVec.extractLsb'_and, whole]
  exact congrArg BitVec.toFin BitVec.and_allOnes

theorem opNN_and {op mask : Word} (h : opNN mask = 0xFF) : opNN (op &&& mask) = opNN op := by
  have whole : mask.extractLsb' 0 8 = 0xFF#8 := h
  rw [opNN, BitVec.extractLsb'_and, whole]
  exact BitVec.and_allOnes

/-! ### The rows that select a word -/

section Selects

variable {r r' : Fin 35} {op : Word} (selects : (opcodeTable[r]).selects op = true)
include selects

theorem and_mask_of_selects : op &&& (opcodeTable[r]).mask = (opcodeTable[r]).pattern := beq_iff_eq.mp selects

theorem opTop_of_selects : opTop (opcodeTable[r]).pattern = opTop op := by
  rw [← and_mask_of_selects selects, opTop_and (row_fixes_opTop r)]

theorem opN_of_selects (family : opTop op ∈ [0x5, 0x8, 0x9]) : opN (opcodeTable[r]).pattern = opN op := by
  rw [← and_mask_of_selects selects, opN_and (row_fixes_opN r (by rwa [opTop_of_selects selects]))]

theorem opNN_of_selects (family : opTop op ∈ [0xE, 0xF]) : opNN (opcodeTable[r]).pattern = opNN op := by
  rw [← and_mask_of_selects selects, opNN_and (row_fixes_opNN r (by rwa [opTop_of_selects selects]))]

/-- A row of a word that does not decode would have a pattern that does not decode: the decoder tests only bits that
the row fixes. -/
theorem decodeOp_ne_none_of_selects : decodeOp op ≠ none := by
  intro unknown
  have lowNibble := opN_of_selects selects
  have lowByte := opNN_of_selects selects
  refine pattern_decodes r (decodeOp_eq_none.mpr ?_)
  rw [opTop_of_selects selects]
  obtain ⟨top, low⟩ | ⟨top, low⟩ | ⟨top, low⟩ | ⟨top, low⟩ | ⟨top, low⟩ := decodeOp_eq_none.mp unknown
  · exact .inl ⟨top, by rwa [lowNibble (by simp [top])]⟩
  · exact .inr (.inl ⟨top, by rwa [lowNibble (by simp [top])]⟩)
  · exact .inr (.inr (.inl ⟨top, by rwa [lowNibble (by simp [top])]⟩))
  · exact .inr (.inr (.inr (.inl ⟨top, by rwa [lowByte (by simp [top])]⟩)))
  · exact .inr (.inr (.inr (.inr ⟨top, by rwa [lowByte (by simp [top])]⟩)))

/-- A word that two rows select has the fixed bits of both. -/
theorem selects_twice (selects' : (opcodeTable[r']).selects op = true) (ne : r ≠ r') : r.val ≤ 2 ∧ r'.val ≤ 2 := by
  apply rows_disagree r r' _ ne
  rw [← and_mask_of_selects selects, ← and_mask_of_selects selects', BitVec.and_assoc, BitVec.and_assoc,
    BitVec.and_comm (opcodeTable[r]).mask]

end Selects

/-- The word of an instruction has the fixed bits of its row, by the layout of the word. -/
theorem encode_selects (i : Instr) : Laws.TableRow.Statement i := by
  cases i with
  | cls => exact Laws.TableRow.cls
  | ret => exact Laws.TableRow.ret
  | sys | jp | call | ldI | jpV0 => exact fun _ => Laws.TableRow.addr_selects _ _
  | seImm | sneImm | ldImm | addImm | rnd => exact fun _ => Laws.TableRow.regImm_selects _ _ _
  | seReg | ldReg | orReg | andReg | xorReg | addReg | sub | shr | subn | shl | sneReg =>
    exact fun _ => Laws.TableRow.regReg_selects _ _ _ _
  | drw => exact fun _ => Laws.TableRow.regRegN_selects _ _ _ _
  | skp | sknp | ldVxDT | ldVxK | ldDTVx | ldSTVx | addI | ldF | ldB | stRegs | ldRegs =>
    exact fun _ => Laws.TableRow.reg_selects _ _ _

/-- The two rows before the general row of family 0 select one word each, which decodes to the row's instruction. -/
theorem opRow_of_fixed_row {r : Fin 35} {op : Word} {i : Instr} (selects : (opcodeTable[r]).selects op = true)
    (fixed : r.val < 2) (h : decodeOp op = some i) : opRow i = r := by
  obtain ⟨whole, decodes⟩ := first_rows_fix_word r fixed
  have word : op = (opcodeTable[r]).pattern := by
    rw [← and_mask_of_selects selects, whole, BitVec.and_allOnes]
  rw [← word, h] at decodes
  exact Option.some.inj decodes

/-- Settles O4: the row of an instruction selects its word (`encode_selects`), so a second row that does lies in family
0 (`selects_twice`), where an earlier one is the row of a fixed word, which decodes to that row's own instruction. -/
theorem decodeFollowsTheOpcodeTable : Obligations.DecodeFollowsTheOpcodeTable := by
  refine ⟨fun op i h => ?_, fun op unknown r => ?_, fun op r r' => selects_twice⟩
  · have own : (opcodeTable[opRow i]).selects op = true := by
      obtain ⟨wf, rfl⟩ := encodeOfDecodeIsTheWord op i h
      exact encode_selects i wf
    refine ⟨own, fun r earlier => Bool.eq_false_iff.mpr fun selects => ?_⟩
    obtain ⟨-, family0⟩ := selects_twice selects own (ne_of_lt earlier)
    have same := opRow_of_fixed_row selects (by omega) h
    exact absurd earlier (by omega)
  · exact Bool.eq_false_iff.mpr fun selects => decodeOp_ne_none_of_selects selects unknown

/-- Settles O5: each word is decoded by evaluation. -/
theorem tableWordsDecode : Obligations.TableWordsDecode := by
  unfold Obligations.TableWordsDecode
  decide

end Sys2Proof
end

section
/-! PROOF. The cycle (40_cycle.md R81 to R92): what a step does with a decoded instruction, at the end of memory, in
Halted, and on a word put where it fetches. -/

namespace Sys2Proof.Machine

/-! ### What the cycle begins with -/

theorem CycleBegins.status {s s1 : State} (h : CycleBegins s s1) : s1.status = s.status := by rw [h.only_env]

theorem CycleBegins.pc {s s1 : State} (h : CycleBegins s s1) : s1.pc = s.pc := by rw [h.only_env]

/-! ### The end of a cycle, by the status the instruction leaves -/

theorem settle_next_running (c : Nat) {t : State} (h : t.status = .running) :
    settle c (.next t) = .next (t.account c) := by
  simp [settle, h]

theorem settle_next_halted (c : Nat) {t : State} {f : FaultRecord} (h : t.status = .halted f) :
    settle c (.next t) = .next t := by
  simp [settle, h]

/-! ### The deferral test (R87): strictly above the budget -/

section Fetched

variable {s s1 : State} {i : Instr} (begins : CycleBegins s s1) (fetched : Fetches s1 i)
include begins fetched

theorem step_of_over_budget (exceeds : s1.cfg.frameBudget < s1.acc + s1.costOf i) :
    step s = .next (s1.account 0) := by
  have defers : s1.defers i = true := decide_eq_true exceeds
  rw [step_cycle begins, cycle_fetches fetched, runDecoded, if_pos defers]

theorem step_of_within_budget (within : s1.acc + s1.costOf i ≤ s1.cfg.frameBudget) :
    step s = settle (s1.costOf i) (exec i s1) := by
  have runs : ¬s1.defers i = true := by simpa [State.defers] using within
  rw [step_cycle begins, cycle_fetches fetched, runDecoded, if_neg runs]

end Fetched

/-- Settles O7: the two sides of the deferral test, and after an instruction that ran the two sides of `settle`. -/
theorem stepRunsTheDecodedInstruction : Obligations.StepRunsTheDecodedInstruction := by
  intro s s1 i begins fetched
  refine ⟨step_of_over_budget begins fetched, fun within => ?_⟩
  have ran := step_of_within_budget begins fetched within
  refine ⟨ran, fun t answer => ⟨fun running => ?_, fun f halted => ?_⟩⟩
  · rw [ran, answer, settle_next_running _ running]
  · rw [ran, answer, settle_next_halted _ halted]

/-- Settles O10: the state after a deferred cycle is `s1.account 0`, and accounting writes the four named pieces. -/
theorem deferredCycleMutatesNothing : Obligations.DeferredCycleMutatesNothing := by
  intro s s1 i begins fetched exceeds
  refine ⟨s1.account 0, step_of_over_budget begins fetched exceeds, rfl, fun noBoundary => ?_⟩
  rw [State.account_within 0 s1 noBoundary]
  exact ⟨rfl, rfl, rfl, rfl⟩

/-! ### Cycles that run no instruction -/

/-- Settles O9: the idle cycle answers the state it began from, which is `s` with the inputs latched. -/
theorem haltedBlockIdles : Obligations.HaltedBlockIdles := by
  intro s s1 f begins halted
  exact ⟨(step_cycle begins).trans (cycle_halted (begins.status.trans halted)), begins.only_env⟩

/-- Settles O13: the fetch is tested before the deferral, and its fault ends the cycle. -/
theorem fetchPastMemoryHalts : Obligations.FetchPastMemoryHalts := by
  intro s s1 begins running past
  rw [← begins.pc] at past ⊢
  exact (step_cycle begins).trans (cycle_fetch_fault (begins.status.trans running) past)

/-! ### A word put where the next step fetches -/

theorem tableWord_toNat (op : Word) : tableWord 16 op.toNat = op := by
  rw [tableWord, Nat.mod_eq_of_lt op.isLt, BitVec.ofNat_toNat, BitVec.setWidth_eq]

/-- The two bytes of a word stored at `pc` are fetched as that word. -/
theorem fetchWord_of_store_wordBytes {u : State} {m : Memory} {op : Word}
    (stored : u.mem = m.store u.pc.toNat (wordBytes op)) : u.fetchWord = op := by
  have length : (wordBytes op).length = 2 := rfl
  rw [State.fetchWord, stored, Memory.read_store, Memory.read_store, if_pos (by omega), if_pos (by omega),
    Nat.sub_self, Nat.add_sub_cancel_left]
  exact bytesWord_wordBytes op

theorem withFetchWord_pc_le (s : State) (nbits w : Nat) : (s.withFetchWord nbits w).pc.toNat ≤ 0xFFE := by
  simp only [State.withFetchWord]
  split
  · assumption
  · decide

theorem withFetchWord_begins (s : State) (nbits w : Nat) :
    CycleBegins (s.withFetchWord nbits w) (s.withFetchWord nbits w).latchFree := .inl ⟨rfl, rfl⟩

/-- The stored word is fetched and, being an instruction's own, decodes to it (`decodeOp_encode`). -/
theorem withFetchWord_fetches (s : State) {i : Instr} (wf : i.wf = true) :
    Fetches (s.withFetchWord 16 (encode i).toNat).latchFree i := by
  refine ⟨rfl, withFetchWord_pc_le s 16 (encode i).toNat, ?_⟩
  rw [fetchWord_of_store_wordBytes (m := s.mem) rfl, tableWord_toNat, decodeOp_encode wf]

/-- Settles O8: `acc` is 0, so a cost within the budget does not defer the instruction. -/
theorem withFetchWordRunsTheInstruction : Obligations.WithFetchWordRunsTheInstruction := by
  intro s i wf cost s0
  have begins : CycleBegins s0 s0.latchFree := withFetchWord_begins s _ _
  have fetched : Fetches s0.latchFree i := withFetchWord_fetches s wf
  have within : 0 + s.cfg.cost[opRow i] ≤ s.cfg.frameBudget := by rwa [Nat.zero_add]
  exact ⟨begins, fetched, step_of_within_budget begins fetched within⟩

end Sys2Proof.Machine
end

section
/-! PROOF. Families 0, 1, 2: no-op, clear, return, jump, call (41_system_flow.md R100 to R104). -/

namespace Sys2Proof.Machine

/-! ### No-op, clear, jump -/

/-- Settles O26: the meaning of 0nnn is `advance`, whatever `nnn` is. -/
theorem sysIsANoOp : Obligations.SysIsANoOp := fun _ _ => rfl

theorem Frame.cell_blank (j : Fin 2048) : Frame.blank.cell j = false := by
  simp only [Frame.cell, Frame.blank, Vector.getElem_replicate]

/-- Settles O27: the state after 00E0 has the blank frame, of which every cell is off. -/
theorem clsClearsTheFrameBuffer : Obligations.ClsClearsTheFrameBuffer := fun s =>
  ⟨(s.setFb Frame.blank).advance, rfl, Frame.cell_blank, rfl, fun _ => rfl⟩

/-- Settles O29: the target is `nnn` zero-extended, which has the same value (`addrOf_toNat`). -/
theorem jpJumps : Obligations.JpJumps := fun nnn s => ⟨s.jump (addrOf nnn), rfl, addrOf_toNat nnn, rfl⟩

/-! ### Return and call: each with room on the stack and without -/

section Stack

variable {s : State}

theorem exec_ret_top {below : List Word} {a : Word} (top : s.stack = below ++ [a]) :
    exec .ret s = .next { s with stack := below, pc := a + 2 } := by
  have last : s.stack.getLast? = some a := by rw [top, List.getLast?_concat]
  have rest : s.stack.dropLast = below := by rw [top, List.dropLast_concat]
  simp only [exec, execRet, last, State.jump, State.dropTop, rest]

theorem exec_ret_empty (empty : s.stack = []) :
    exec .ret s = .next (haltedWith .stackUnderflow s.pc.toNat s) := by
  have last : s.stack.getLast? = none := by rw [empty, List.getLast?_nil]
  simp only [exec, execRet, last, raise, haltedWith]

variable (nnn : Addr)

theorem exec_call_room (room : s.stack.length ≠ s.cfg.stackDepth) :
    exec (.call nnn) s = .next ((s.push s.pc).jump (addrOf nnn)) := if_neg room

theorem exec_call_full (full : s.stack.length = s.cfg.stackDepth) :
    exec (.call nnn) s = .next (haltedWith .stackOverflow s.pc.toNat s) := if_pos full

end Stack

/-- Settles O28: a stack with a top entry (`exec_ret_top`) and an empty one (`exec_ret_empty`). -/
theorem retReturnsAfterTheCall : Obligations.RetReturnsAfterTheCall := fun _ =>
  ⟨fun _ _ top => exec_ret_top top, exec_ret_empty⟩

/-- Settles O30: a stack with room (`exec_call_room`) and a full one (`exec_call_full`). -/
theorem callPushesItsOwnAddress : Obligations.CallPushesItsOwnAddress := by
  intro nnn s
  refine ⟨fun room => ?_, exec_call_full nnn⟩
  exact ⟨_, exec_call_room nnn room, rfl, addrOf_toNat nnn, rfl, fun _ => rfl⟩

/-- Settles O31: the call left `pc` on top of the stack it found, so a return from that stack takes `pc` off again and
goes 2 past it. -/
theorem returnUndoesCall : Obligations.ReturnUndoesCall := by
  intro nnn s t u room called same
  rw [exec_call_room nnn room] at called
  injection called with called
  have top : u.stack = s.stack ++ [s.pc] := by rw [same, ← called, State.jump_stack, State.push_stack]
  exact ⟨_, exec_ret_top top, rfl, rfl⟩

end Sys2Proof.Machine
end

section
/-! PROOF. Families 3, 4, 5, 9: the register compare-and-skip instructions (42_skips.md R110 to R113). -/

namespace Sys2Proof.Machine

/-- R114 with the condition as a proposition that the Boolean test decides. -/
theorem State.skipIf_of_iff {c : Bool} {p : Prop} [Decidable p] (test : c = true ↔ p) (s : State) :
    s.skipIf c = { s with pc := if p then s.pc + 4 else s.pc + 2 } := by
  by_cases holds : p
  · rw [if_pos holds, test.mpr holds]
    rfl
  · rw [if_neg holds, Bool.eq_false_iff.mpr (mt test.mp holds)]
    rfl

section Compare

variable (a b : Byte) (s : State)

theorem State.skipIf_beq :
    s.skipIf (a == b) = { s with pc := if a = b then s.pc + 4 else s.pc + 2 } := s.skipIf_of_iff beq_iff_eq

theorem State.skipIf_bne :
    s.skipIf (a != b) = { s with pc := if a ≠ b then s.pc + 4 else s.pc + 2 } := s.skipIf_of_iff bne_iff_ne

end Compare

/-- Settles O32: each instruction is `skipIf` on the test for equal bytes (3xnn, 5xy0) or for unequal ones (4xnn,
9xy0). -/
theorem registerSkips : Obligations.RegisterSkips := by
  intro x y nn s
  refine ⟨?seImm, ?sneImm, ?seReg, ?sneReg⟩
  case seImm => exact congrArg Host.Outcome.next (s.skipIf_beq (s.getV x) nn)
  case sneImm => exact congrArg Host.Outcome.next (s.skipIf_bne (s.getV x) nn)
  case seReg => exact congrArg Host.Outcome.next (s.skipIf_beq (s.getV x) (s.getV y))
  case sneReg => exact congrArg Host.Outcome.next (s.skipIf_bne (s.getV x) (s.getV y))

end Sys2Proof.Machine
end

section
/-! PROOF. How an instruction that completes and advances comes to have a `RegisterEffect`. -/

namespace Sys2Proof.Machine

/-! ### Registers outside a list are kept by writes to registers of the list -/

section Kept

variable {changed : List Reg} {s t : State}

theorem RegsKept.refl : RegsKept changed s s := fun _ _ => rfl

theorem RegsKept.setV (kept : RegsKept changed s t) {x : Reg} (listed : x ∈ changed) (b : Byte) :
    RegsKept changed s (t.setV x b) := fun r unlisted => by
  have ne : r ≠ x := fun e => unlisted (e ▸ listed)
  rw [State.getV_setV_other b t ne, kept r unlisted]

theorem RegsKept.setVIf (kept : RegsKept changed s t) (c : Bool) {x : Reg} (listed : x ∈ changed) (b : Byte) :
    RegsKept changed s (t.setVIf c x b) := by
  cases c with
  | false => exact kept
  | true => exact kept.setV listed b

end Kept

/-! ### From register writes to the effect -/

section Effect

variable {s u : State} {o : Out} {changed : List Reg} {P Q : State → Prop}

/-- An instruction that advances after nothing but register writes. -/
theorem registerEffect_advance (only : u = { s with V := u.V }) (kept : RegsKept changed s u) (value : P u.advance) :
    RegisterEffect (.next u.advance) s changed P := by
  have pc : u.pc = s.pc := by rw [only]
  have mem : u.mem = s.mem := by rw [only]
  refine ⟨u.advance, rfl, value, kept, ?_, ?_, fun a => ?_⟩
  · rw [State.advance_pc, pc]
  · rw [State.advance_pc, pc]
    exact congrArg State.advance only
  · exact congrArg (fun m : Memory => m.read a) mem

/-- An instruction that writes one register. -/
theorem registerEffect_setV {x : Reg} {b : Byte} (value : P (s.setV x b).advance) :
    RegisterEffect (.next (s.setV x b).advance) s [x] P :=
  registerEffect_advance rfl (RegsKept.refl.setV (by simp) b) value

theorem RegisterEffect.mono (effect : RegisterEffect o s changed P) (imp : ∀ t, P t → Q t) :
    RegisterEffect o s changed Q := by
  obtain ⟨t, answers, value, frame⟩ := effect
  exact ⟨t, answers, imp t value, frame⟩

end Effect

end Sys2Proof.Machine
end

section
/-! PROOF. Families 6, 7, 8: load immediate, add immediate, register arithmetic and logic (43_load_alu.md R120 to
R133). -/

namespace Sys2Proof.Machine

/-! ### The flags as numbers (R122), and a flag that is shifted itself (R123) -/

theorem flagByte_carry_toNat (a b : Byte) :
    (flagByte (carry a b)).toNat = if 255 < a.toNat + b.toNat then 1 else 0 := by
  simp only [flagByte_toNat, carry, decide_eq_true_eq]

theorem flagByte_noBorrow_toNat (a b : Byte) :
    (flagByte (noBorrow a b)).toNat = if b.toNat ≤ a.toNat then 1 else 0 := by
  simp only [flagByte_toNat, noBorrow, decide_eq_true_eq]

theorem flagByte_bit0_toNat (v : Byte) : (flagByte (bit0 v)).toNat = v.toNat % 2 := by
  rw [flagByte_toNat, bit0, BitVec.getLsbD, Nat.testBit_zero]
  rcases Nat.mod_two_eq_zero_or_one v.toNat with h | h <;> simp [h]

theorem flagByte_bit7_toNat (v : Byte) : (flagByte (bit7 v)).toNat = v.toNat / 128 := by
  have lt : v.toNat < 256 := v.isLt
  rw [flagByte_toNat, bit7, BitVec.getLsbD, Nat.testBit_eq_decide_div_mod_eq]
  simp only [decide_eq_true_eq]
  split <;> omega

/-- A flag shifted right leaves nothing. -/
theorem shrByte_flagByte (b : Bool) : shrByte (flagByte b) = 0 := by cases b <;> rfl

/-- A flag shifted left is twice the flag: nothing is lost. -/
theorem shlByte_flagByte_toNat (b : Bool) : (shlByte (flagByte b)).toNat = 2 * (flagByte b).toNat := by
  cases b <;> rfl

/-! ### The effect of each shared write order (R122, R123) -/

section Writes

variable (x : Reg) (r : Byte) (s : State)

theorem logicResult_effect :
    RegisterEffect (logicResult x r s) s [x, VF] fun t =>
      (x ≠ VF → t.getV x = r) ∧ (s.cfg.logicQuirk = true → t.getV VF = 0) ∧
      (s.cfg.logicQuirk = false → t.getV VF = if x = VF then r else s.getV VF) := by
  refine registerEffect_advance rfl ((RegsKept.refl.setV (by simp) r).setVIf _ (by simp) 0) ⟨?dest, ?forced, ?free⟩
  case dest =>
    intro ne
    simp [State.getV_setVIf, ne]
  case forced =>
    intro quirk
    simp [State.getV_setVIf, quirk]
  case free =>
    intro quirk
    simp [State.getV_setVIf, State.getV_setV, quirk, eq_comm]

theorem resultThenFlag_effect (f : Bool) :
    RegisterEffect (resultThenFlag x r f s) s [x, VF] fun t =>
      (x ≠ VF → t.getV x = r) ∧ t.getV VF = flagByte f := by
  refine registerEffect_advance rfl ((RegsKept.refl.setV (by simp) r).setV (by simp) _) ⟨fun ne => ?_, ?_⟩
  · rw [State.getV_advance, State.getV_setV_other _ _ ne, State.getV_setV_same]
  · rw [State.getV_advance, State.getV_setV_same]

/-- With `x = 0xF` the shift acts on the flag just written. -/
theorem shiftVia_effect (out shift : Byte → Byte) :
    RegisterEffect (shiftVia out shift x r s) s [x, VF] fun t =>
      (x ≠ VF → t.getV x = shift r ∧ t.getV VF = out r) ∧ (x = VF → t.getV VF = shift (out r)) := by
  refine registerEffect_advance rfl
    (((RegsKept.refl.setV (by simp) r).setV (by simp) _).setV (by simp) _) ⟨fun ne => ⟨?_, ?_⟩, ?_⟩
  · rw [State.getV_advance, State.getV_setV_same, State.getV_setV_other _ _ ne, State.getV_setV_same]
  · rw [State.getV_advance, State.getV_setV_other _ _ ne.symm, State.getV_setV_same]
  · rintro rfl
    rw [State.getV_advance, State.getV_setV_same, State.getV_setV_same]

end Writes

/-- The effect of 8xy5 for either order of its operands. -/
theorem subtraction_effect (x : Reg) (a b : Byte) (s : State) :
    RegisterEffect (resultThenFlag x (subBytes a b) (noBorrow a b) s) s [x, VF] fun t =>
      (x ≠ VF → (t.getV x).toNat = (a.toNat + 256 - b.toNat) % 256) ∧
      (t.getV VF).toNat = if b.toNat ≤ a.toNat then 1 else 0 :=
  (resultThenFlag_effect x _ s _).mono fun t ⟨dest, flag⟩ =>
    ⟨fun ne => by rw [dest ne, subBytes_toNat], by rw [flag, flagByte_noBorrow_toNat]⟩

/-! ### The two shifts are one order of writes (R131, R133) -/

theorem exec_shr (x y : Reg) (s : State) :
    exec (.shr x y) s = shiftVia (fun v => flagByte (bit0 v)) shrByte x (s.shiftSource x y) s := rfl

theorem exec_shl (x y : Reg) (s : State) :
    exec (.shl x y) s = shiftVia (fun v => flagByte (bit7 v)) shlByte x (s.shiftSource x y) s := rfl

/-! ### The obligations -/

/-- Settles O37: the three writes of `shiftVia_effect`, with the bit shifted out and the shifted flag as numbers. -/
theorem shiftsBySourceAndFlag : Obligations.ShiftsBySourceAndFlag := by
  intro x y s v fromQuirk
  have source : s.shiftSource x y = v := fromQuirk.symm
  refine ⟨?shr, ?shl⟩
  case shr =>
    rw [exec_shr, source]
    have effect := shiftVia_effect x v s (fun v => flagByte (bit0 v)) shrByte
    refine effect.mono fun t ⟨other, self⟩ => ⟨fun ne => ?_, fun eq => ?_⟩
    · obtain ⟨dest, flag⟩ := other ne
      rw [dest, flag, shrByte_toNat, flagByte_bit0_toNat]
      exact ⟨rfl, rfl⟩
    · rw [self eq, shrByte_flagByte]
  case shl =>
    rw [exec_shl, source]
    have effect := shiftVia_effect x v s (fun v => flagByte (bit7 v)) shlByte
    refine effect.mono fun t ⟨other, self⟩ => ⟨fun ne => ?_, fun eq => ?_⟩
    · obtain ⟨dest, flag⟩ := other ne
      rw [dest, flag, shlByte_toNat, flagByte_bit7_toNat]
      exact ⟨rfl, rfl⟩
    · rw [self eq, shlByte_flagByte_toNat, flagByte_bit7_toNat]

/-- Settles O33: each of the three writes one register. -/
theorem loadsAndAddImmediate : Obligations.LoadsAndAddImmediate := by
  intro x y nn s
  refine ⟨registerEffect_setV ?ldImm, registerEffect_setV ?addImm, registerEffect_setV ?ldReg⟩
  case ldImm => exact State.getV_setV_same x nn s
  case addImm => rw [State.getV_advance, State.getV_setV_same, addBytes_toNat]
  case ldReg => exact State.getV_setV_same x (s.getV y) s

/-- Settles O34: each of the three is `logicResult` of its bitwise result. -/
theorem logicWithItsQuirk : Obligations.LogicWithItsQuirk := by
  rintro x y s i r (⟨rfl, rfl⟩ | ⟨rfl, rfl⟩ | ⟨rfl, rfl⟩)
  case inl => exact logicResult_effect x (s.getV x ||| s.getV y) s
  case inr.inl => exact logicResult_effect x (s.getV x &&& s.getV y) s
  case inr.inr => exact logicResult_effect x (s.getV x ^^^ s.getV y) s

/-- Settles O35: the sum and then the carry (`resultThenFlag_effect`). -/
theorem addSetsTheCarry : Obligations.AddSetsTheCarry := by
  intro x y s
  refine (resultThenFlag_effect x _ s _).mono fun t ⟨dest, flag⟩ => ⟨fun ne => ?_, ?_⟩
  · rw [dest ne, addBytes_toNat]
  · rw [flag, flagByte_carry_toNat]

/-- Settles O36: one subtraction (`subtraction_effect`), in the two orders of its operands. -/
theorem subtractionsSetNoBorrow : Obligations.SubtractionsSetNoBorrow := fun x y s =>
  ⟨subtraction_effect x (s.getV x) (s.getV y) s, subtraction_effect x (s.getV y) (s.getV x) s⟩

end Sys2Proof.Machine
end

section
/-! PROOF. Families A, B, C: load index, jump with offset, random (44_index_jump_random.md R140 to R142). -/

namespace Sys2Proof.Machine

/-- Settles O38: the new index is `nnn` zero-extended, which has the same value (`addrOf_toNat`). -/
theorem ldILoadsTheAddress : Obligations.LdILoadsTheAddress := fun nnn s =>
  ⟨(s.setI (addrOf nnn)).advance, rfl, addrOf_toNat nnn, rfl, fun _ => rfl⟩

/-! ### The offset of Bnnn (R141): its register, and a sum with room in the word -/

/-- The high nibble of a 12-bit address is the address divided by 256. -/
theorem State.jumpOffsetReg_val (s : State) (nnn : Addr) :
    (s.jumpOffsetReg nnn).val = if s.cfg.jumpOffsetQuirk then nnn.toNat / 256 else 0 := by
  have high : (nnn.extractLsb' 8 4).toNat = nnn.toNat / 256 := by
    have := nnn.isLt
    rw [BitVec.extractLsb'_toNat, Nat.shiftRight_eq_div_pow]
    omega
  rw [State.jumpOffsetReg]
  split
  · exact high
  · rfl

/-- At most 0xFFF + 0xFF, so the 16-bit sum does not wrap. -/
theorem addrOf_add_byte_toNat (nnn : Addr) (b : Byte) :
    (addrOf nnn + b.setWidth 16).toNat = nnn.toNat + b.toNat := by
  have := nnn.isLt
  have := b.isLt
  rw [BitVec.toNat_add, addrOf_toNat, BitVec.toNat_setWidth_of_le (by decide)]
  omega

/-- Settles O39: a register of the number that `State.jumpOffsetReg_val` gives is the one that Bnnn adds, and the sum
does not wrap (`addrOf_add_byte_toNat`). -/
theorem jpV0AddsTheOffset : Obligations.JpV0AddsTheOffset := by
  intro nnn r s number
  have register : s.jumpOffsetReg nnn = r := Fin.ext ((s.jumpOffsetReg_val nnn).trans number.symm)
  refine ⟨_, rfl, ?_, rfl⟩
  rw [State.jump_pc, register, addrOf_add_byte_toNat]

/-- Settles O40: Cxnn writes one register. -/
theorem rndMasksTheRandomInput : Obligations.RndMasksTheRandomInput := fun x nn s =>
  registerEffect_setV (State.getV_setV_same x (s.env.inp.rnd &&& nn) s)

end Sys2Proof.Machine
end

section
/-! PROOF. Family D: one sprite drawn, and the same sprite drawn twice (45_draw.md R150 to R154). -/

namespace Sys2Proof.Machine

/-! ### A drawing over the flat view of the frame buffer (10_state.md R20) -/

section Sprite

variable (bs : List Byte) (x0 y0 : Nat) (fb : Frame)

/-- The sprite at this place has a 1 bit over cell j. -/
abbrev overCell (j : Fin 2048) : Bool := spriteBit bs x0 y0 (j.val % 64) (j.val / 64)

theorem drawSprite_cell (j : Fin 2048) :
    (drawSprite bs x0 y0 fb).fb.cell j = (fb.cell j ^^ overCell bs x0 y0 j) :=
  drawSprite_pixel bs x0 y0 fb ⟨j.val % 64, by omega⟩ ⟨j.val / 64, by omega⟩

theorem drawSprite_collision_cell :
    (drawSprite bs x0 y0 fb).collision = true ↔ ∃ j, overCell bs x0 y0 j = true ∧ fb.cell j = true := by
  rw [drawSprite_collision]
  constructor
  · rintro ⟨qx, qy, bit, on⟩
    refine ⟨⟨qy.val * 64 + qx.val, by omega⟩, ?_, (fb.cell_eq_pixel qx qy).trans on⟩
    have column : (qy.val * 64 + qx.val) % 64 = qx.val := by omega
    have row : (qy.val * 64 + qx.val) / 64 = qy.val := by omega
    rwa [overCell, column, row]
  · rintro ⟨j, bit, on⟩
    exact ⟨⟨j.val % 64, by omega⟩, ⟨j.val / 64, by omega⟩, bit, on⟩

/-- XOR with the same bits twice. -/
theorem drawSprite_twice : (drawSprite bs x0 y0 (drawSprite bs x0 y0 fb).fb).fb = fb :=
  Frame.ext_of_pixel fun qx qy => by
    rw [drawSprite_pixel, drawSprite_pixel, Bool.xor_assoc, Bool.xor_self, Bool.xor_false]

/-- The second drawing turns a pixel off exactly where the first turned it on (90_conflicts.md C9). -/
theorem drawSprite_twice_collision :
    (drawSprite bs x0 y0 (drawSprite bs x0 y0 fb).fb).collision = true ↔
      ∃ j, fb.cell j = false ∧ overCell bs x0 y0 j = true := by
  rw [drawSprite_collision_cell]
  refine exists_congr fun j => ?_
  rw [drawSprite_cell, and_comm]
  refine and_congr_left fun bit => ?_
  rw [bit, Bool.xor_true, Bool.not_eq_true']

end Sprite

/-! ### The instruction -/

theorem flagByte_eq_one_iff (b : Bool) : flagByte b = 1 ↔ b = true := by cases b <;> decide

theorem flagByte_eq_zero_iff (b : Bool) : flagByte b = 0 ↔ ¬b = true := by cases b <;> decide

/-- The state after a Dxyn whose row addresses are in range. -/
def State.drawn (s : State) (x y : Reg) (n : Nibble) : State :=
  ((s.setFb (s.drawing x y n).fb).setV VF (flagByte (s.drawing x y n).collision)).advance

section Drawn

variable (s : State) (x y : Reg) (n : Nibble)

theorem State.drawn_fb : (s.drawn x y n).fb = (s.drawing x y n).fb := rfl

theorem State.drawn_VF : (s.drawn x y n).getV VF = flagByte (s.drawing x y n).collision := by
  rw [State.drawn, State.getV_advance, State.getV_setV_same]

theorem State.drawn_regsKept : RegsKept [VF] s (s.drawn x y n) := fun r unlisted => by
  rw [State.drawn, State.getV_advance, State.getV_setV_other _ _ (List.ne_of_not_mem_cons unlisted), State.getV_setFb]

variable {s x y n}

theorem exec_drw_inRange (fits : n.val = 0 ∨ s.I.toNat + (n.val - 1) ≤ 0xFFF) :
    exec (.drw x y n) s = .next (s.drawn x y n) :=
  checkRange_in (by omega)

/-- The next drawing with the same operands, where the flag has left the two coordinates as they were: the same
bytes at the same place, over the frame buffer that the first one left. -/
theorem State.drawn_drawing (keptX : (s.drawn x y n).getV x = s.getV x) (keptY : (s.drawn x y n).getV y = s.getV y) :
    (s.drawn x y n).drawing x y n =
      drawSprite (s.spriteBytes n) (s.startX x) (s.startY y) (s.drawing x y n).fb := by
  have sameX : (s.drawn x y n).startX x = s.startX x := by rw [State.startX, keptX]; rfl
  have sameY : (s.drawn x y n).startY y = s.startY y := by rw [State.startY, keptY]; rfl
  rw [State.drawing, sameX, sameY]
  rfl

end Drawn

/-- Settles O41: the premises name the place and the bytes of `State.drawing`, whose cells and collision are those of
`drawSprite_cell` and `drawSprite_collision_cell`. -/
theorem drwXorsTheSprite : Obligations.DrwXorsTheSprite := by
  rintro x y n s _ _ _ fits rfl rfl rfl
  have collides := drawSprite_collision_cell (s.spriteBytes n) (s.startX x) (s.startY y) s.fb
  refine ⟨s.drawn x y n, exec_drw_inRange fits, drawSprite_cell _ _ _ _, fun overOn => ?_, fun overOff => ?_,
    s.drawn_regsKept x y n, rfl, fun _ => rfl⟩
  · rw [State.drawn_VF, flagByte_eq_one_iff]
    exact collides.mpr overOn
  · rw [State.drawn_VF, flagByte_eq_zero_iff]
    intro collision
    obtain ⟨j, bit, on⟩ := collides.mp collision
    exact Bool.false_ne_true ((overOff j bit).symm.trans on)

/-- Settles O42: the second instruction draws the same bytes at the same place (`State.drawn_drawing`), which
`drawSprite_twice` and `drawSprite_twice_collision` describe. -/
theorem doubleDrawRestoresTheFrameBuffer : Obligations.DoubleDrawRestoresTheFrameBuffer := by
  intro x y n s t fits first keptX keptY
  obtain rfl : s.drawn x y n = t := Host.Outcome.next.inj ((exec_drw_inRange fits).symm.trans first)
  have again := State.drawn_drawing keptX keptY
  refine ⟨(s.drawn x y n).drawn x y n, exec_drw_inRange fits, ?_, ?_⟩
  · rw [State.drawn_fb, again]
    exact drawSprite_twice _ _ _ s.fb
  · rw [State.drawn_VF, flagByte_eq_one_iff, again]
    exact drawSprite_twice_collision _ _ _ s.fb

end Sys2Proof.Machine
end

section
/-! PROOF. Family E and Fx0A: the keypad instructions (46_keypad_ops.md R160 to R162). -/

namespace Sys2Proof.Machine

/-! ### The release window as a bound on the time of the cycle (60_exceptions.md R227) -/

section Window

variable {s : State}

theorem State.live_iff {k : Key} : s.live k = true ↔ s.shadow[k] = true ∧ s.env.inp.t < s.relTs[k] + 30000 := by
  rw [State.live, debounce, Bool.and_eq_true, decide_eq_true_eq]
  refine and_congr_right fun _ => ?_
  omega

theorem State.qualifies_iff {k : Key} :
    s.qualifies k = true ↔ s.shadow[k] = true ∧ s.cur[k] = false ∧ s.env.inp.t < s.relTs[k] + 30000 := by
  rw [State.qualifies, Bool.and_eq_true, State.live_iff, Bool.not_eq_true', and_assoc, and_comm (b := s.cur[k] = false)]

end Window

/-! ### The instructions -/

/-- R63: the key operand is the one key whose number is the low nibble of Vx. -/
theorem State.keyOf_eq {s : State} {x : Reg} {k : Key} (number : k.val = (s.getV x).toNat % 16) : s.keyOf x = k :=
  Fin.ext number.symm

section WaitKey

variable {s : State} (x : Reg)

theorem exec_ldVxK_takes {k : Key} (first : s.firstKey = some k) :
    exec (.ldVxK x) s = .next (s.setV x (BitVec.ofNat 8 k.val)).advance := by
  simp only [exec, execLdVxK, first]

theorem exec_ldVxK_waits (noKey : s.firstKey = none) : exec (.ldVxK x) s = .next s := by
  simp only [exec, execLdVxK, noKey]

end WaitKey

/-- A key's number fits in a register. -/
theorem keyByte_toNat (k : Key) : (BitVec.ofNat 8 k.val).toNat = k.val := by
  rw [BitVec.toNat_ofNat]
  omega

/-- Settles O44: the keys of the premise are those that qualify, so the lowest of them is `firstKey`, and with none of
them there is no `firstKey`. -/
theorem waitKeyTakesTheLowestRelease : Obligations.WaitKeyTakesTheLowestRelease := by
  intro x s released window
  have qualifies (k : Key) : s.qualifies k = true ↔ released k := State.qualifies_iff.trans (window k).symm
  have fails {k : Key} (out : ¬released k) : s.qualifies k = false := Bool.eq_false_iff.mpr (mt (qualifies k).mp out)
  refine ⟨fun k out lowest => ?takes, fun noKey => ?waits⟩
  case takes =>
    have first : s.firstKey = some k := firstKey_eq_some.mpr ⟨(qualifies k).mpr out, fun j lt => fails (lowest j lt)⟩
    rw [exec_ldVxK_takes x first]
    refine registerEffect_setV ?_
    rw [State.getV_advance, State.getV_setV_same, keyByte_toNat]
  case waits => exact exec_ldVxK_waits x (firstKey_eq_none.mpr fun k => fails (noKey k))

/-- Settles O43: both are `skipIf` on the state of the key that `State.keyOf_eq` identifies, ExA1 on its negation. -/
theorem keySkips : Obligations.KeySkips := by
  intro x k s number
  obtain rfl := State.keyOf_eq number
  exact ⟨congrArg Host.Outcome.next (s.skipIf_of_iff Iff.rfl),
    congrArg Host.Outcome.next (s.skipIf_of_iff (Bool.not_eq_true' _).to_iff)⟩

end Sys2Proof.Machine
end

section
/-! PROOF. Family F: timer, index and memory instructions (47_timer_index_memory_ops.md R170 to R178). -/

namespace Sys2Proof.Machine

/-! ### Timers and the index register -/

/-- Settles O46: each of the three writes one register or timer, and `buzzer_active` reads the sound timer itself. -/
theorem timerLoads : Obligations.TimerLoads := fun x s =>
  ⟨registerEffect_setV (State.getV_setV_same x s.DT s), rfl, _, rfl, rfl, decide_eq_true_iff⟩

/-- Settles O47: the 16-bit word of the reduced sum has its value. -/
theorem addIWrapsAtSixteenBits : Obligations.AddIWrapsAtSixteenBits := by
  intro x s
  refine ⟨_, rfl, ?_, rfl, fun _ => rfl⟩
  rw [State.advance_I, State.setI_I, BitVec.toNat_ofNat, Nat.mod_mod]

/-- R241: with a font base in the bounds of R240 the address of a glyph fits in the word. -/
theorem fontTable_toNat {base : Nat} (bound : base ≤ 0x1B0) (d : Nibble) :
    ((fontTable base)[d]).toNat = base + 5 * d.val := by
  rw [Fin.getElem_fin, fontTable, Vector.getElem_ofFn, BitVec.toNat_ofNat]
  exact Nat.mod_eq_of_lt (by omega)

/-- The constraints of R240 and 00_scope.md R7 on a configuration, as propositions. -/
theorem configLegal_iff {c : Config} :
    configLegal c = true ↔ c.fontBase ≤ 0x1B0 ∧ 0 < c.frameBudget ∧ 1 ≤ c.stackDepth ∧
      ∀ k : Fin 35, c.cost[k] ≤ c.frameBudget := by
  have costs : (c.cost.toList.all fun k => decide (k ≤ c.frameBudget)) = true ↔
      ∀ k : Fin 35, c.cost[k] ≤ c.frameBudget := by
    simp [Fin.forall_iff]
  simp only [configLegal, Bool.and_eq_true, decide_eq_true_eq, costs, and_assoc]

theorem State.Inv.fontBase_le {s : State} (inv : s.Inv) : s.cfg.fontBase ≤ 0x1B0 :=
  (configLegal_iff.mp inv.legal).1

/-- Settles O48: the digit is the low nibble of Vx, and the invariant says what the font table holds. -/
theorem ldFPointsAtTheGlyph : Obligations.LdFPointsAtTheGlyph := by
  intro x d s number
  obtain rfl : lowNibble (s.getV x) = d := Fin.ext number.symm
  refine ⟨_, rfl, rfl, rfl, fun _ => rfl, fun inv => ?_⟩
  rw [State.advance_I, State.setI_I, inv.font, fontTable_toNat inv.fontBase_le]

/-! ### The memory instructions with their addresses in range (R46) -/

theorem Memory.read_store_inside (m : Memory) (a : Nat) {i : Nat} {bs : List Byte} (inside : i < bs.length) :
    (m.store a bs).read (a + i) = bs.getD i 0 := by
  rw [Memory.read_store, if_pos (by omega), Nat.add_sub_cancel_left]

section InRange

variable {s : State} {x : Reg}

theorem exec_ldB_inRange (inRange : s.I.toNat + 2 ≤ 0xFFF) :
    exec (.ldB x) s = .next (s.storeBytes s.I.toNat (bcdBytes (s.getV x))).advance :=
  checkRange_in (by omega)

variable (inRange : s.I.toNat + x.val ≤ 0xFFF)
include inRange

theorem exec_stRegs_inRange :
    exec (.stRegs x) s = .next ((s.storeBytes s.I.toNat (s.firstRegs x)).setI (s.indexAfter x)).advance :=
  checkRange_in (by omega)

theorem exec_ldRegs_inRange :
    exec (.ldRegs x) s = .next ((s.loadRegs x s.I.toNat).setI (s.indexAfter x)).advance :=
  checkRange_in (by omega)

/-- The index after the last address in memory is at most 0x1000, so it does not wrap. -/
theorem State.indexAfter_toNat :
    (s.indexAfter x).toNat = if s.cfg.memoryQuirk then s.I.toNat + x.val + 1 else s.I.toNat := by
  rw [State.indexAfter]
  split
  · rw [BitVec.toNat_ofNat]
    omega
  · rfl

end InRange

/-- Settles O49: the three bytes of the store are the digits (`bcdBytes_getD_toNat`), and a store changes no byte
outside its range. -/
theorem bcdStoresThreeDigits : Obligations.BcdStoresThreeDigits := by
  intro x s inRange
  have digit {i n : Nat} (h : (i = 0 ∧ n = (s.getV x).toNat / 100) ∨ (i = 1 ∧ n = (s.getV x).toNat / 10 % 10) ∨
      (i = 2 ∧ n = (s.getV x).toNat % 10)) :
      ((s.mem.store s.I.toNat (bcdBytes (s.getV x))).read (s.I.toNat + i)).toNat = n := by
    rw [Memory.read_store_inside _ _ (by rw [bcdBytes_length]; omega), bcdBytes_getD_toNat h]
  refine ⟨_, exec_ldB_inRange inRange, digit (.inl ⟨rfl, rfl⟩), digit (.inr (.inl ⟨rfl, rfl⟩)),
    digit (.inr (.inr ⟨rfl, rfl⟩)), fun a outside => ?_, rfl⟩
  exact Memory.read_store_outside _ _ _ (by rw [bcdBytes_length]; omega)

/-- Settles O50: byte r of the store is Vr (`firstRegs_getD`), and a store changes no byte outside its range. -/
theorem storeRegistersToMemory : Obligations.StoreRegistersToMemory := by
  intro x s inRange
  refine ⟨_, exec_stRegs_inRange inRange, fun r listed => ?_, fun a outside => ?_, State.indexAfter_toNat inRange, rfl⟩
  · have le : r.val ≤ x.val := listed
    rw [← firstRegs_getD s listed]
    exact Memory.read_store_inside _ _ (by rw [firstRegs_length]; omega)
  · exact Memory.read_store_outside _ _ _ (by rw [firstRegs_length]; omega)

/-- Settles O51: a register up to Vx is read from memory, one above it is kept (`State.getV_loadRegs`). -/
theorem loadRegistersFromMemory : Obligations.LoadRegistersFromMemory := by
  intro x s inRange
  refine ⟨_, exec_ldRegs_inRange inRange, fun r listed => ?_, fun r above => ?_, State.indexAfter_toNat inRange, rfl,
    fun _ => rfl⟩
  · rw [State.getV_advance, State.getV_setI, State.getV_loadRegs, if_pos listed, State.readByte]
  · rw [State.getV_advance, State.getV_setI, State.getV_loadRegs, if_neg (not_le.mpr above)]

end Sys2Proof.Machine
end

section
/-! PROOF. Timers and the frame boundary, fatal conditions and the stops of a step (60_exceptions.md R200 to R222). -/

namespace Sys2Proof.Machine

/-! ### Every instruction and every cycle answers a next state -/

theorem checkRange_next (n : Nat) (s effect : State) : ∃ t, checkRange n s effect = .next t := by
  unfold checkRange
  split
  · exact ⟨_, rfl⟩
  · exact ⟨_, rfl⟩

/-- Settles O17: the instructions with two outcomes answer a next state in both. -/
theorem everyInstructionAnswersANextState : Obligations.EveryInstructionAnswersANextState := by
  intro i s
  cases i with
  | ret =>
    simp only [exec, execRet]
    split
    · exact ⟨_, rfl⟩
    · exact ⟨_, rfl⟩
  | call nnn =>
    by_cases full : s.stack.length = s.cfg.stackDepth
    · exact ⟨_, exec_call_full nnn full⟩
    · exact ⟨_, exec_call_room nnn full⟩
  | ldVxK x =>
    cases found : s.firstKey with
    | some k => exact ⟨_, exec_ldVxK_takes x found⟩
    | none => exact ⟨_, exec_ldVxK_waits x found⟩
  | drw | ldB | stRegs | ldRegs => exact checkRange_next _ s _
  | _ => exact ⟨_, rfl⟩

theorem settle_next (c : Nat) (u : State) : ∃ t, settle c (.next u) = .next t := by
  cases status : u.status with
  | running => exact ⟨_, settle_next_running c status⟩
  | halted f => exact ⟨_, settle_next_halted c status⟩

theorem runDecoded_next (i : Instr) (s : State) : ∃ t, runDecoded i s = .next t := by
  obtain ⟨u, ran⟩ := everyInstructionAnswersANextState i s
  rw [runDecoded, ran]
  split
  · exact ⟨_, rfl⟩
  · exact settle_next _ u

theorem cycle_next (s : State) : ∃ t, cycle s = .next t := by
  cases status : s.status with
  | halted f => exact ⟨s, cycle_halted status⟩
  | running =>
    by_cases past : 0xFFE < s.pc.toNat
    · exact ⟨_, cycle_fetch_fault status past⟩
    · have inRange := Nat.le_of_not_lt past
      cases decoded : decodeOp s.fetchWord with
      | none => exact ⟨_, cycle_unknown status inRange decoded⟩
      | some i =>
        rw [cycle_fetches ⟨status, inRange, decoded⟩]
        exact runDecoded_next i s

/-- Settles O18: a cycle answers a next state (`cycle_next`), so what is left are the three tests that `transact` makes
before it acts. -/
theorem stepStopsOnlyForABrokenDuty : Obligations.StepStopsOnlyForABrokenDuty := by
  intro s
  cases pending : s.env.pending with
  | nil =>
    obtain ⟨t, ran⟩ := cycle_next s.latchFree
    exact .inl ⟨t, by rw [step, pending]; exact ran⟩
  | cons tx rest =>
    have taken : step s = transact tx rest s := by rw [step, pending]
    cases tx with
    | construct program c =>
      cases legal : constructLegal program c with
      | true => exact .inl ⟨_, taken.trans (if_pos legal)⟩
      | false => exact .inr (.inl ⟨program, c, rest, rfl, legal, taken.trans (if_neg (Bool.eq_false_iff.mp legal))⟩)
    | cycle inp =>
      by_cases inOrder : s.earliestCycle ≤ inp.t
      · obtain ⟨t, ran⟩ := cycle_next (s.latch inp rest)
        exact .inl ⟨t, taken.trans ((if_pos inOrder).trans ran)⟩
      · have broken := lt_max_iff.mp (Nat.lt_of_not_le inOrder)
        exact .inr (.inr (.inl ⟨inp, rest, rfl, broken, taken.trans (if_neg inOrder)⟩))
    | keyUp k u =>
      by_cases inOrder : s.env.lastEvent ≤ u
      · exact .inl ⟨_, taken.trans (if_pos inOrder)⟩
      · exact .inr (.inr (.inr ⟨k, u, rest, rfl, Nat.lt_of_not_le inOrder, taken.trans (if_neg inOrder)⟩))
    | reset => exact .inl ⟨_, taken⟩
    | keyDown k => exact .inl ⟨_, taken⟩
    | ackFrame => exact .inl ⟨_, taken⟩

/-! ### The frame boundary (R221, R222) -/

/-- Deferred, executed or waiting: steps S7 and S8 act on the state that step S6 left. -/
theorem AfterInstruction.step_eq {s s1 u : State} {i : Instr} {charged : Nat} (begins : CycleBegins s s1)
    (after : AfterInstruction s1 i u charged) : step s = .next (u.account charged) := by
  obtain ⟨fetched, ⟨exceeds, rfl, rfl⟩ | ⟨within, ran, running, rfl⟩⟩ := after
  · exact step_of_over_budget begins fetched exceeds
  · rw [step_of_within_budget begins fetched within, ran, settle_next_running _ running]

/-- Step S6 keeps what the budget test of step S7 reads beside `acc`. -/
theorem AfterInstruction.cycleKeeps {s1 u : State} {i : Instr} {charged : Nat}
    (after : AfterInstruction s1 i u charged) : CycleKeeps s1 u := by
  obtain ⟨⟨running, -, -⟩, ⟨-, rfl, -⟩ | ⟨-, ran, stays, -⟩⟩ := after
  · exact .refl _
  · obtain ⟨-, kept⟩ | ⟨_, _, -, halted⟩ := exec_status running ran
    · exact kept.cycleKeeps
    · exact nomatch stays.symm.trans halted

/-- Settles O11: accounting within the budget and past it, and the sound timer ticking from 1 to 0. -/
theorem frameBoundaryTicksBothTimersOnce : Obligations.FrameBoundaryTicksBothTimersOnce := by
  intro s s1 u i charged begins after
  have kept := after.cycleKeeps
  have spent : u.spent charged = u.acc + charged + s1.env.inp.dt := by rw [State.spent, kept.env]
  rw [← spent, ← kept.cfg]
  refine ⟨u.account charged, after.step_eq begins, u.account_within charged, fun boundary => ?_⟩
  rw [u.account_boundary charged boundary]
  refine ⟨rfl, tick_toNat u.DT, tick_toNat u.ST, fun last => ?_⟩
  simp only [State.buzzerActive, last]
  decide

/-! ### What changes the timers (R220) -/

/-- A timer that a step has left alone, or that lost 1 at a frame boundary. -/
def KeptOrTicked (old new : Byte) (t : State) : Prop :=
  new = old ∨ (0 < old.toNat ∧ new.toNat + 1 = old.toNat ∧ t.acc = 0 ∧ t.frameReady = true)

theorem tick_keptOrTicked (b : Byte) {t : State} (acc : t.acc = 0) (ready : t.frameReady = true) :
    KeptOrTicked b (tick b) t := by
  have ticked := tick_toNat b
  by_cases zero : b.toNat = 0
  · exact .inl (BitVec.eq_of_toNat_eq (by omega))
  · exact .inr ⟨by omega, by omega, acc, ready⟩

theorem account_keptOrTicked (c : Nat) (u : State) :
    KeptOrTicked u.DT (u.account c).DT (u.account c) ∧ KeptOrTicked u.ST (u.account c).ST (u.account c) := by
  by_cases boundary : u.cfg.frameBudget < u.spent c
  · rw [u.account_boundary c boundary]
    exact ⟨tick_keptOrTicked u.DT rfl rfl, tick_keptOrTicked u.ST rfl rfl⟩
  · rw [u.account_within c (Nat.le_of_not_lt boundary)]
    exact ⟨.inl rfl, .inl rfl⟩

theorem cycle_timers {s t : State} (h : cycle s = .next t) :
    (KeptOrTicked s.DT t.DT t ∨ ∃ x, Fetches s (.ldDTVx x)) ∧
    (KeptOrTicked s.ST t.ST t ∨ ∃ x, Fetches s (.ldSTVx x)) := by
  have untouched {u : State} (dt : u.DT = s.DT) (st : u.ST = s.ST) :
      (KeptOrTicked s.DT u.DT u ∨ ∃ x, Fetches s (.ldDTVx x)) ∧
      (KeptOrTicked s.ST u.ST u ∨ ∃ x, Fetches s (.ldSTVx x)) := ⟨.inl (.inl dt), .inl (.inl st)⟩
  obtain ⟨_, -, rfl⟩ | ⟨-, -, rfl⟩ | ⟨-, -, -, rfl⟩ | ⟨_, -, -, rfl⟩ | ⟨_, _, _, -, -, -, rfl⟩ |
    ⟨i, u, fetched, -, ran, -, -, rfl⟩ := cycle_cases h
  · exact untouched rfl rfl
  · exact untouched rfl rfl
  · exact untouched rfl rfl
  · exact (account_keptOrTicked 0 s).imp .inl .inl
  · exact untouched rfl rfl
  · obtain ⟨delay, sound⟩ := account_keptOrTicked (s.costOf i) u
    refine (exec_timers ran).imp ?_ ?_
    · rintro (kept | ⟨x, rfl⟩)
      · exact .inl (kept ▸ delay)
      · exact .inr ⟨x, fetched⟩
    · rintro (kept | ⟨x, rfl⟩)
      · exact .inl (kept ▸ sound)
      · exact .inr ⟨x, fetched⟩

/-- Settles O12: of the transactions that `step_cases` lists, a cycle does what `cycle_timers` says, `Construct` and
`Reset` are excluded, and the key events and `AckFrame` write neither timer. -/
theorem timersChangeOnlyByTickOrTheirLoad : Obligations.TimersChangeOnlyByTickOrTheirLoad := by
  rintro s t ⟨notConstruct, notReset⟩ hstep
  obtain ⟨s1, begins, ran⟩ | ⟨program, c, rest, pending, -, -⟩ | ⟨rest, pending, -⟩ | ⟨k, rest, -, rfl⟩ |
    ⟨k, u, rest, -, -, rfl⟩ | ⟨rest, -, rfl⟩ := step_cases hstep
  · have delay : s1.DT = s.DT := by rw [begins.only_env]
    have sound : s1.ST = s.ST := by rw [begins.only_env]
    have timers := cycle_timers ran
    rw [delay, sound] at timers
    exact timers.imp (fun rule => or_assoc.mp (rule.imp_right fun ⟨x, fetched⟩ => ⟨s1, x, begins, fetched⟩))
      (fun rule => or_assoc.mp (rule.imp_right fun ⟨x, fetched⟩ => ⟨s1, x, begins, fetched⟩))
  · exact absurd pending (notConstruct program c rest)
  · exact absurd pending (notReset rest)
  · exact ⟨.inl rfl, .inl rfl⟩
  · exact ⟨.inl rfl, .inl rfl⟩
  · exact ⟨.inl rfl, .inl rfl⟩

/-! ### Fatal conditions (R200 to R207) -/

/-- Settles O14: the word is tested before the deferral, and its fault ends the cycle. -/
theorem unknownOpcodeHalts : Obligations.UnknownOpcodeHalts := by
  intro s s1 begins running inRange unknown
  exact ⟨_, (step_cycle begins).trans (cycle_unknown running inRange unknown), rfl, begins.pc⟩

/-- A cycle of a Running block that ends Halted changed nothing but the status, for one of three reasons in the order
of R206: the fetch, the decoder, or an instruction that was not deferred. -/
theorem cycle_halts {s t : State} {kind : FaultKind} {info : Nat} (running : s.status = .running)
    (h : cycle s = .next t) (halted : t.status = .halted ⟨kind, info⟩) :
    t = haltedWith kind info s ∧
    ((0xFFE < s.pc.toNat ∧ kind = .memoryOutOfBounds ∧ info = s.pc.toNat) ∨
     (s.pc.toNat ≤ 0xFFE ∧ decodeOp s.fetchWord = none ∧ kind = .unknownOpcode ∧ info = s.fetchWord.toNat) ∨
     ∃ i, Fetches s i ∧ s.acc + s.costOf i ≤ s.cfg.frameBudget ∧ exec i s = .next t) := by
  obtain ⟨_, idle, -⟩ | ⟨-, past, rfl⟩ | ⟨-, inRange, unknown, rfl⟩ | ⟨_, -, -, rfl⟩ |
    ⟨i, _, _, fetched, runs, ran, rfl⟩ | ⟨_, u, -, -, -, stays, -, rfl⟩ := cycle_cases h
  · exact nomatch running.symm.trans idle
  · cases halted
    exact ⟨rfl, .inl ⟨past, rfl, rfl⟩⟩
  · cases halted
    exact ⟨rfl, .inr (.inl ⟨inRange, unknown, rfl, rfl⟩)⟩
  · exact nomatch running.symm.trans halted
  · cases halted
    exact ⟨rfl, .inr (.inr ⟨i, fetched, Nat.le_of_not_lt (of_decide_eq_false runs), ran⟩)⟩
  · exact nomatch stays.symm.trans halted

/-- Settles O15: the cycle changed only the status (`cycle_halts`), and it began from `s` with its inputs latched. -/
theorem faultsArePreciseAndAtomic : Obligations.FaultsArePreciseAndAtomic := by
  rintro s s1 t ⟨kind, info⟩ begins running hstep halted
  obtain ⟨rfl, -⟩ := cycle_halts (begins.status.trans running) (step_cycle begins ▸ hstep) halted
  exact ⟨congrArg (haltedWith kind info) begins.only_env, begins.pc⟩

/-- The instruction uses the `n` addresses from `I` on. -/
def UsesAddresses (i : Instr) (n : Nat) : Prop :=
  (∃ x y m, i = .drw x y m ∧ n = m.val) ∨ (∃ x, i = .ldB x ∧ n = 3) ∨
    (∃ x, i = .stRegs x ∧ n = x.val + 1) ∨ (∃ x, i = .ldRegs x ∧ n = x.val + 1)

/-- The rows of the table of R200 for a fault of the instruction itself. -/
def InstructionFault (i : Instr) (s : State) (kind : FaultKind) (info : Nat) : Prop :=
  (i = .ret ∧ s.stack = [] ∧ kind = .stackUnderflow ∧ info = s.pc.toNat) ∨
  (∃ nnn, i = .call nnn ∧ s.stack.length = s.cfg.stackDepth ∧ kind = .stackOverflow ∧ info = s.pc.toNat) ∨
  (∃ n, UsesAddresses i n ∧ 0 < n ∧ 0xFFF < s.I.toNat + (n - 1) ∧ kind = .memoryOutOfBounds ∧
    info = max s.I.toNat 0x1000)

section InstructionFault

variable {s t : State} {kind : FaultKind} {info : Nat} (running : s.status = .running)
  (halted : t.status = .halted ⟨kind, info⟩)
include running halted

theorem checkRange_fault {i : Instr} {n : Nat} {effect : State} (h : checkRange n s effect = .next t)
    (keeps : effect.status = s.status) (uses : UsesAddresses i n) : InstructionFault i s kind info := by
  obtain ⟨rfl, -⟩ | ⟨pos, out, rfl⟩ := checkRange_cases h
  · exact nomatch (keeps.trans running).symm.trans halted
  · cases halted
    exact .inr (.inr ⟨n, uses, pos, by omega, rfl, rfl⟩)

theorem exec_fault {i : Instr} (h : exec i s = .next t) : InstructionFault i s kind info := by
  have runs_on {u : State} (answer : exec i s = .next u) (keeps : u.status = s.status) :
      InstructionFault i s kind info := by
    obtain rfl : u = t := Host.Outcome.next.inj (answer.symm.trans h)
    exact nomatch (keeps.trans running).symm.trans halted
  cases i with
  | ret =>
    obtain empty | ⟨below, a, top⟩ := s.stack.eq_nil_or_concat'
    · rw [exec_ret_empty empty] at h
      cases h
      cases halted
      exact .inl ⟨rfl, empty, rfl, rfl⟩
    · exact runs_on (exec_ret_top top) rfl
  | call nnn =>
    by_cases full : s.stack.length = s.cfg.stackDepth
    · rw [exec_call_full nnn full] at h
      cases h
      cases halted
      exact .inr (.inl ⟨nnn, rfl, full, rfl, rfl⟩)
    · exact runs_on (exec_call_room nnn full) rfl
  | ldVxK x =>
    cases found : s.firstKey with
    | some k => exact runs_on (exec_ldVxK_takes x found) rfl
    | none => exact runs_on (exec_ldVxK_waits x found) rfl
  | drw x y m => exact checkRange_fault running halted h rfl (.inl ⟨x, y, m, rfl, rfl⟩)
  | ldB x => exact checkRange_fault running halted h rfl (.inr (.inl ⟨x, rfl, rfl⟩))
  | stRegs x => exact checkRange_fault running halted h rfl (.inr (.inr (.inl ⟨x, rfl, rfl⟩)))
  | ldRegs x => exact checkRange_fault running halted h rfl (.inr (.inr (.inr ⟨x, rfl, rfl⟩)))
  | _ => exact runs_on rfl rfl

end InstructionFault

/-- Settles O16: the reasons of `cycle_halts`, the last of them by the rows of `exec_fault`. The latched state differs
from `s` in its record of the outside world only, of which no cause speaks. -/
theorem everyFaultHasItsListedCause : Obligations.EveryFaultHasItsListedCause := by
  intro s s1 t kind info begins running hstep halted
  obtain ⟨e, rfl⟩ : ∃ e, s1 = { s with env := e } := ⟨_, begins.only_env⟩
  obtain ⟨-, fetch | unknown | ⟨i, fetched, within, ran⟩⟩ :=
    cycle_halts (begins.status.trans running) (step_cycle begins ▸ hstep) halted
  · exact .inl fetch
  · exact .inr (.inl unknown)
  · exact .inr (.inr ⟨i, fetched, within, exec_fault (begins.status.trans running) halted ran⟩)

end Sys2Proof.Machine
end

section
/-! PROOF. The key events and the acknowledgement (60_exceptions.md R225 to R231). -/

namespace Sys2Proof.Machine

/-! ### One element of a keypad array is written -/

section Keypad

variable {α : Type} (v : Vector α 16) {k j : Key} (a : α)

theorem getElem_set_key : (v.set k a)[k] = a := Vector.getElem_set_self k.isLt

theorem getElem_set_other_key (ne : j ≠ k) : (v.set k a)[j] = v[j] :=
  Vector.getElem_set_ne k.isLt j.isLt (Fin.val_ne_of_ne ne.symm)

end Keypad

/-- Settles O54: `pressKey` writes one element of `cur`. -/
theorem keyDownSetsCurrent : Obligations.KeyDownSetsCurrent := by
  intro s k rest pending
  refine ⟨(s.withPending rest).pressKey k, by rw [step, pending]; rfl, getElem_set_key _ _,
    fun j ne => getElem_set_other_key _ _ ne, rfl⟩

/-- Settles O55: with duty 3 kept the release is taken, and `releaseKey` writes one element of each keypad array. -/
theorem keyUpOpensTheWindow : Obligations.KeyUpOpensTheWindow := by
  intro s k u rest pending inOrder
  have taken : step s = .next ((s.withEvent u rest).releaseKey k u) := by
    rw [step, pending]
    exact if_pos inOrder
  refine ⟨_, taken, getElem_set_key _ _, getElem_set_key _ _, getElem_set_key _ _, fun j ne => ?_, rfl⟩
  exact ⟨getElem_set_other_key _ _ ne, getElem_set_other_key _ _ ne, getElem_set_other_key _ _ ne⟩

/-- Settles O56: the transaction is `State.ackFrame`. -/
theorem ackFrameClearsTheFlag : Obligations.AckFrameClearsTheFlag := by
  intro s rest pending
  rw [step, pending]
  rfl

/-- R227 after a release at t0 has written the two elements that the window reads. -/
theorem State.live_iff_of_released {s : State} {k : Key} {t0 : Nat} (shadow : s.shadow[k] = true)
    (released : s.relTs[k] = t0) : s.live k = true ↔ s.env.inp.t < t0 + 30000 := by
  rw [State.live_iff, released, and_iff_right shadow]

/-- Settles O45: the window reads the two elements that `releaseKey` wrote, and `pressKey` writes neither. -/
theorem releaseIsLiveForThirtyMilliseconds : Obligations.ReleaseIsLiveForThirtyMilliseconds :=
  fun s _ _ _ _ _ _ =>
    ⟨State.live_iff_of_released (getElem_set_key s.shadow true) (getElem_set_key s.relTs _),
      State.live_iff_of_released (getElem_set_key s.shadow true) (getElem_set_key s.relTs _)⟩

end Sys2Proof.Machine
end

section
/-! PROOF. Construction, reset and the cost that never fits (70_reset_and_hazards.md R240 to R246, R254). -/

namespace Sys2Proof.Machine

/-! ### Reset (R245, R246) -/

theorem getElem_replicate_key {α : Type} (a : α) (k : Nibble) : (Vector.replicate 16 a)[k] = a :=
  Vector.getElem_replicate k.isLt

/-- Settles O57: `resetBlock` gives every piece its initial value, and the transaction before it only leaves the
list. -/
theorem resetKeepsMemoryOnly : Obligations.ResetKeepsMemoryOnly := by
  intro s rest pending
  have taken : step s = .next (s.withPending rest).resetBlock := by
    rw [step, pending]
    rfl
  refine ⟨_, taken, getElem_replicate_key 0, rfl, rfl, rfl, rfl, rfl, Frame.cell_blank, fun k => ?keypad, rfl, rfl, rfl,
    rfl, rfl, rfl, rfl, rfl⟩
  case keypad => exact ⟨getElem_replicate_key false k, getElem_replicate_key false k, getElem_replicate_key 0 k⟩

/-! ### Construct (R240 to R244) -/

/-- The arguments that R240 admits. -/
theorem constructLegal_iff {program : List Byte} {c : Config} :
    constructLegal program c = true ↔ program.length ≤ 3584 ∧ c.fontBase ≤ 0x1B0 ∧ 0 < c.frameBudget ∧
      1 ≤ c.stackDepth ∧ ∀ k : Fin 35, c.cost[k] ≤ c.frameBudget := by
  rw [constructLegal, Bool.and_eq_true, configLegal_iff, decide_eq_true_eq, and_comm]

section ConstructedMemory

variable (program : List Byte) {c : Config}

/-- R241: the glyphs end below the entry point, so the program does not lie over them. -/
theorem constructedMemory_glyph (base : c.fontBase ≤ 0x1B0) (j : Fin 80) :
    (constructedMemory program c).read (c.fontBase + j.val) = c.fontGlyphs[j] := by
  have glyphs : c.fontGlyphs.toList.length = 80 := Vector.length_toList
  have below : c.fontBase + j.val < entryPoint := by
    unfold entryPoint
    omega
  rw [constructedMemory, Memory.read_store_outside _ _ _ (.inl below),
    Memory.read_store_inside _ _ (by omega), List.getD_eq_getElem _ _ (by omega), Vector.getElem_toList]
  rfl

theorem constructedMemory_program {j : Nat} (inside : j < program.length) :
    (constructedMemory program c).read (0x200 + j) = program.getD j 0 :=
  Memory.read_store_inside _ _ inside

theorem constructedMemory_elsewhere {a : Nat} (noGlyph : a < c.fontBase ∨ c.fontBase + 79 < a)
    (noProgram : a < 0x200 ∨ 0x200 + program.length ≤ a) : (constructedMemory program c).read a = 0 := by
  have glyphs : c.fontGlyphs.toList.length = 80 := Vector.length_toList
  rw [constructedMemory, Memory.read_store_outside _ _ _ noProgram, Memory.read_store_outside _ _ _ (by omega)]
  rfl

end ConstructedMemory

/-- Settles O58: the premise is `constructLegal`, and the block is `constructed`, whose memory the three lemmas above
describe. -/
theorem constructBuildsTheBlock : Obligations.ConstructBuildsTheBlock := by
  intro s program c rest pending
  have taken : step s = transact (.construct program c) rest s := by rw [step, pending]
  rw [← constructLegal_iff]
  refine ⟨fun legal => ?_, fun illegal => taken.trans (if_neg illegal)⟩
  obtain ⟨-, base, -⟩ := constructLegal_iff.mp legal
  refine ⟨_, taken.trans (if_pos legal), constructedMemory_glyph program base,
    fun _ => constructedMemory_program program, fun _ => constructedMemory_elsewhere program, fontTable_toNat base,
    getElem_replicate_key 0, rfl, rfl, rfl, rfl, rfl, Frame.cell_blank, fun k => ?keypad, rfl, rfl, rfl, rfl, rfl⟩
  case keypad => exact ⟨getElem_replicate_key false k, getElem_replicate_key false k, getElem_replicate_key 0 k⟩

/-! ### A cost above the budget (R254) -/

/-- One cycle with free inputs defers the instruction and keeps what the deferral depends on. -/
theorem step_of_unaffordable {s : State} {i : Instr} (free : s.env.pending = []) (fetched : Fetches s i)
    (unaffordable : s.cfg.frameBudget < s.costOf i) : step s = .next (s.latchFree.account 0) :=
  step_of_over_budget (.inl ⟨free, rfl⟩) fetched (Nat.lt_add_left s.acc unaffordable)

/-- Settles O25, by induction on the number of cycles: each defers the instruction, and the state it leaves still
fetches it. -/
theorem costAboveTheBudgetNeverRuns : Obligations.CostAboveTheBudgetNeverRuns := by
  intro k s t i free fetched unaffordable run
  induction k generalizing s with
  | zero =>
    obtain rfl : s = t := Host.Outcome.next.inj run
    exact ⟨rfl, free⟩
  | succ k ih =>
    rw [runSteps, step_of_unaffordable free fetched unaffordable] at run
    exact ih (s.latchFree.account 0) rfl fetched unaffordable run

end Sys2Proof.Machine
end
